-- ==== Sys2Proof/Word.lean ====
section
/-! DEFINITION. The word types and the sizes every later file uses. -/

namespace Sys2Proof

/-- A byte, an unsigned value 0 to 255 (rules R8, R14). -/
abbrev Byte := BitVec 8

/-- The program counter's 9 bits, enough for its values 0 to 256 (rule R16, decision D6). -/
abbrev Pc := BitVec 9

/-- The index of a general register: 0 is X, 1 is Y, 2 is Z, 3 is W (rule R14). -/
abbrev RegIndex := Fin 4

/-- The number of bytes of each of the two address spaces (rule R31). -/
abbrev spaceSize : Nat := 256

/-- The number of general registers; an index is valid when it is below it (rules R14, R15). -/
abbrev numRegs : Nat := 4

end Sys2Proof
end

