-- ==== Sys2Proof/Machine/State.lean ====
section
/-! DEFINITION. The state of the core (rule R13), the error kinds, the outcome of an executor, the reasons a step can
stop, and the state after reset (rule R30). -/

namespace Sys2Proof.Machine

/-- The kinds of error that end a run (rules R26, R98). -/
inductive FatalKind where
  /-- A read or write range outside a 256-byte space; raised by the fetch and window stages (rules R69, R70). -/
  | illegalMemoryAccess
  /-- An executed instruction names a register index of 4 or more (rule R72). -/
  | registerError
  /-- The fetched opcode is 0x10 to 0xFF (rule R97). -/
  | unknownOpcode
  deriving DecidableEq, Repr

/-- The kinds of error an executor can signal (rules R9, R98). -/
inductive ErrorKind where
  | fatal (k : FatalKind)
  /-- The one kind that does not end the run (rule R74). -/
  | divideByZero
  deriving DecidableEq, Repr

/-- The run state (rule R26). DivideByZero never appears in it. -/
inductive Status where
  | running
  | halted
  | errored (k : FatalKind)
  deriving DecidableEq, Repr

/-- One address space: the (address, byte) pairs of its nonzero bytes, addresses strictly rising. The canonical form is
`Memory.wf` (Ops.lean). -/
abbrev Memory := List Host.Cell

/-- The core's architectural state: exactly the record of rule R13. -/
structure State where
  /-- Program counter, 0 to 256 (rule R16). -/
  pc : Pc
  /-- General registers X, Y, Z, W (rule R14). -/
  x : Vector Byte 4
  /-- C, the Compare flag (rule R19). -/
  compare : Bool
  /-- E, the Error flag (rule R20). -/
  error : Bool
  /-- Program memory, read-only (rules R23, R33). -/
  rom : Memory
  /-- Data memory, read-write (rules R24, R36). -/
  ram : Memory
  /-- Every byte the print instruction has emitted, oldest first (rule R25). -/
  out : List Byte
  /-- Run state (rule R26). -/
  status : Status
  deriving DecidableEq, Repr

/-- What an executor returns besides the advance (rule R9). -/
inductive Signal where
  | cont
  | halt
  | fail (k : ErrorKind)
  deriving DecidableEq, Repr

/-- What an executor answers: the state with its writes, the advance in bytes (an integer 0 to 4), and the outcome
(rules R9, R67). -/
structure Executed where
  state : State
  adv : Fin 5
  outcome : Signal
  deriving DecidableEq, Repr

/-- Why a step faults. -/
inductive Fault where
  /-- Raised by `step` alone, on a state whose status is HALTED or ERRORED: the spec says that such a state has no step
  (rule R68). Safe: the hardware does nothing there either. -/
  | terminal (status : Status)
  deriving DecidableEq, Repr

/-- Why an instruction is refused. -/
inductive Refusal where
  /-- Raised by an arm of `exec` for an instruction that has no meaning yet; no arm raises it. Safe. -/
  | notModelled (mnemonic : String)
  deriving DecidableEq, Repr

/-- The machine right after reset (rule R30; registers and flags by decisions D3 and D4, log entries 3 and 4). Program
memory lists nothing, so every byte of it reads 0: this is what construction gives for an image of zero bytes; a program
is loaded by the host's construction (`construct`, rule R117; log entry 7). -/
def State.reset : State where
  pc := 0
  x := Vector.replicate 4 0
  compare := false
  error := false
  rom := []
  ram := []
  out := []
  status := .running

end Sys2Proof.Machine
end

