-- ==== Sys2Proof/Machine/Ops.lean ====
section
/-! DEFINITION. The named operations: memory reads and writes, state updates, the fatal path, and the cycle driver's
outcome handling. -/

namespace Sys2Proof.Machine

/-! ### Memory -/

/-- What an unlisted address reads as. RAM starts zero-filled, and ROM beyond the program image is zero
(rules R23, R24, R33, R36). -/
abbrev Memory.unlisted : Byte := 0

/-- The byte at an address. -/
def Memory.read : Memory → Nat → Byte
  | [], _ => Memory.unlisted
  | (k, b) :: m, a => if k = a then b else Memory.read m a

/-- Put a byte at an address, keeping the canonical form: a byte equal to what an unlisted address reads as is removed. -/
def Memory.write : Memory → Nat → Byte → Memory
  | [], a, v => if v = Memory.unlisted then [] else [(a, v)]
  | (k, b) :: m, a, v =>
    if a < k then
      if v = Memory.unlisted then (k, b) :: m else (a, v) :: (k, b) :: m
    else if a = k then
      if v = Memory.unlisted then m else (a, v) :: m
    else
      (k, b) :: Memory.write m a v

/-- Put bytes at rising addresses. -/
def Memory.writeBytes : Memory → Nat → List Byte → Memory
  | m, _, [] => m
  | m, a, v :: vs => Memory.writeBytes (Memory.write m a v) (a + 1) vs

/-- The canonical form: addresses strictly rising, each inside the 256-byte space, no listed byte equal to what an
unlisted address reads as. -/
abbrev Memory.wf (m : Memory) : Prop :=
  m.Pairwise (fun c d => c.1 < d.1) ∧ ∀ c ∈ m, c.1 < spaceSize ∧ c.2 ≠ Memory.unlisted

/-- `MemRead(space, addr, n)`: none is IllegalMemoryAccess; the empty range at 256 is valid (rules R32, R34). -/
def memRead (m : Memory) (addr n : Nat) : Option (List Byte) :=
  if addr + n ≤ spaceSize then some ((List.range n).map fun k => Memory.read m (addr + k)) else none

/-- `MemWrite(RAM, addr, n, v)`: all or nothing; none is IllegalMemoryAccess (rule R35). -/
def memWrite (m : Memory) (addr : Nat) (v : List Byte) : Option Memory :=
  if addr + v.length ≤ spaceSize then some (Memory.writeBytes m addr v) else none

/-! ### State updates -/

/-- Read a general register (rule R9). -/
def State.reg (s : State) (i : RegIndex) : Byte := s.x[i]

/-- Write a general register (rule R9). -/
def State.setReg (s : State) (i : RegIndex) (v : Byte) : State := { s with x := s.x.set i v }

/-- Overwrite the program counter (rule R9). -/
def State.setPc (s : State) (pc : Pc) : State := { s with pc := pc }

/-- Add an executor's advance to the program counter (rules R17, R74). -/
def State.advance (s : State) (adv : Fin 5) : State := { s with pc := s.pc + BitVec.ofNat 9 adv.val }

/-- Write the Compare flag (rule R19). -/
def State.setCompare (s : State) (b : Bool) : State := { s with compare := b }

/-- Write the Error flag (rule R20). -/
def State.setError (s : State) (b : Bool) : State := { s with error := b }

/-- Replace data memory (rule R35). -/
def State.setRam (s : State) (m : Memory) : State := { s with ram := m }

/-- `Emit(v)`: append a byte to the output port (rules R25, R95). -/
def State.emit (s : State) (v : Byte) : State := { s with out := s.out ++ [v] }

/-- Write the run state (rule R26). -/
def State.setStatus (s : State) (st : Status) : State := { s with status := st }

/-! ### Errors and outcome handling -/

/-- `Fatal(s, k)`, the fatal path: E becomes 1, the status becomes ERRORED(k), and nothing else changes; the program
counter keeps its value (rule R73). The core has no trap: no vector, no saved state, no return (rules R105, R106). -/
def fatal (k : FatalKind) (s : State) : State := (s.setError true).setStatus (.errored k)

/-- Outcome handling and advance, the last stages of the cycle (rules R67, R74). A halt does not advance the program
counter and does not set E (rule R96). -/
def settle (e : Executed) : State :=
  match e.outcome with
  | .cont => e.state.advance e.adv
  | .halt => e.state.setStatus .halted
  | .fail .divideByZero => (e.state.setError true).advance e.adv
  | .fail (.fatal k) => fatal k e.state

end Sys2Proof.Machine
end

