-- ==== Sys2Proof/Machine/Operands.lean ====
section
/-! DEFINITION. The operand forms: register fields with the validation stage (rule R72), immediates as jump targets, and
the register-indirect data access. -/

namespace Sys2Proof.Machine

/-- The register a field selects: the whole byte is the index, valid when below 4; never clamped or wrapped
(rules R15, R57). -/
def reg? (r : Byte) : Option RegIndex :=
  if h : r.toNat < numRegs then some ⟨r.toNat, h⟩ else none

/-- Run an executor that references no register, and handle its outcome (rules R72, R74). -/
def dispatch0 (run : Executed) : Host.Outcome State Fault Refusal :=
  .next (settle run)

/-- Validate one register field before any effect, then run the executor and handle its outcome (rules R72, R74). -/
def dispatch1 (r1 : Byte) (s : State) (run : RegIndex → Executed) : Host.Outcome State Fault Refusal :=
  match reg? r1 with
  | some a => .next (settle (run a))
  | none => .next (fatal .registerError s)

/-- Validate two register fields before any effect, then run the executor and handle its outcome (rules R72, R74). -/
def dispatch2 (r1 r2 : Byte) (s : State) (run : RegIndex → RegIndex → Executed) : Host.Outcome State Fault Refusal :=
  match reg? r1, reg? r2 with
  | some a, some b => .next (settle (run a b))
  | _, _ => .next (fatal .registerError s)

/-- Validate three register fields before any effect, then run the executor and handle its outcome (rules R72, R74). -/
def dispatch3 (r1 r2 r3 : Byte) (s : State) (run : RegIndex → RegIndex → RegIndex → Executed) :
    Host.Outcome State Fault Refusal :=
  match reg? r1, reg? r2, reg? r3 with
  | some a, some b, some d => .next (settle (run a b d))
  | _, _, _ => .next (fatal .registerError s)

/-- `zext_9(imm)`: an immediate as an absolute program-memory address (rules R58, R90). -/
def jumpTarget (imm : Byte) : Pc := imm.zeroExtend 9

/-- The effective address of a data access: the register's value, with no offset, scaling or update
(rules R37, R84, R86). -/
def effectiveAddress (v : Byte) : Nat := v.toNat

/-- Read one byte of data memory; none is IllegalMemoryAccess (rules R37, R84). -/
def loadByte (s : State) (ea : Nat) : Option Byte :=
  (memRead s.ram ea 1).bind List.head?

/-- Write one byte of data memory; none is IllegalMemoryAccess (rules R37, R86). -/
def storeByte (s : State) (ea : Nat) (v : Byte) : Option State :=
  (memWrite s.ram ea [v]).map s.setRam

/-! ### Arithmetic on bytes, modulo 256 (rule R79) -/

/-- The sum modulo 256 (rule R80). -/
def aluAdd (a b : Byte) : Byte := a + b

/-- The difference modulo 256 (rule R81). -/
def aluSub (a b : Byte) : Byte := a - b

/-- The low byte of the product (rule R82). -/
def aluMul (a b : Byte) : Byte := a * b

/-- DIV_FN: the unsigned quotient, rounded toward zero, of a nonzero divisor (rule R83; DESIGN CHOICE of the spec,
decision D5, log entry 5; unsafe). -/
def aluDiv (a b : Byte) : Byte := a / b

end Sys2Proof.Machine
end

