-- ==== Sys2Proof/Machine/Flags.lean ====
section
/-! DEFINITION. The flag computations: what the compares write, and what a conditional jump reads and clears. There is no
other flag (rule R21). E is set by the driver alone (rule R20): `settle` and `fatal` in Ops.lean. -/

namespace Sys2Proof.Machine

/-- What EQ writes to C: the full 8-bit values are equal (rule R88). -/
def equalFlag (a b : Byte) : Bool := a == b

/-- What NEQ writes to C: the full 8-bit values differ (rule R89). -/
def notEqualFlag (a b : Byte) : Bool := a != b

/-- A jump on a flag: taken, the program counter is overwritten, the flag is cleared and the advance is 0; not taken,
nothing changes and the advance is 2, so the flag stays 0 (rules R90, R92, R93). -/
def jumpIf (flag : Bool) (clear : State → State) (imm : Byte) (s : State) : Executed :=
  if flag then ⟨clear (s.setPc (jumpTarget imm)), 0, .cont⟩ else ⟨s, 2, .cont⟩

end Sys2Proof.Machine
end

