-- ==== Sys2Proof/Machine/Arithmetic.lean ====
section
/-! DEFINITION. The meanings of ADD, SUB, MUL and DIV (rules R79 to R83). -/

namespace Sys2Proof.Machine

/-- The executor of a three-register operation: both sources are read before the destination is written (rules R10,
R79). -/
def arithmetic (f : Byte → Byte → Byte) (s : State) (a b d : RegIndex) : Executed :=
  ⟨s.setReg d (f (s.reg a) (s.reg b)), 4, .cont⟩

/-- The executor of DIV: a zero divisor value signals DivideByZero and writes no register (rule R83; the test is on the
value, conflict C3). -/
def divide (s : State) (a b d : RegIndex) : Executed :=
  if s.reg b = 0 then ⟨s, 4, .fail .divideByZero⟩ else arithmetic aluDiv s a b d

/-- ADD (rule R80). -/
def execAdd (r1 r2 r3 : Byte) (s : State) : Host.Outcome State Fault Refusal :=
  dispatch3 r1 r2 r3 s (arithmetic aluAdd s)

/-- SUB (rule R81). -/
def execSub (r1 r2 r3 : Byte) (s : State) : Host.Outcome State Fault Refusal :=
  dispatch3 r1 r2 r3 s (arithmetic aluSub s)

/-- MUL (rule R82). -/
def execMul (r1 r2 r3 : Byte) (s : State) : Host.Outcome State Fault Refusal :=
  dispatch3 r1 r2 r3 s (arithmetic aluMul s)

/-- DIV (rule R83). -/
def execDiv (r1 r2 r3 : Byte) (s : State) : Host.Outcome State Fault Refusal :=
  dispatch3 r1 r2 r3 s (divide s)

end Sys2Proof.Machine
end

