-- ==== Sys2Proof/Machine/Compare.lean ====
section
/-! DEFINITION. The meanings of EQ and NEQ (rules R88, R89). -/

namespace Sys2Proof.Machine

/-- The executor of a compare: C is overwritten whatever its old value; no register and no E is written
(rules R88, R89). -/
def compareInto (f : Byte → Byte → Bool) (s : State) (a b : RegIndex) : Executed :=
  ⟨s.setCompare (f (s.reg a) (s.reg b)), 3, .cont⟩

/-- EQ (rule R88). -/
def execEq (r1 r2 : Byte) (s : State) : Host.Outcome State Fault Refusal :=
  dispatch2 r1 r2 s (compareInto equalFlag s)

/-- NEQ (rule R89). -/
def execNeq (r1 r2 : Byte) (s : State) : Host.Outcome State Fault Refusal :=
  dispatch2 r1 r2 s (compareInto notEqualFlag s)

end Sys2Proof.Machine
end

