-- ==== Sys2Proof/Machine/Control.lean ====
section
/-! DEFINITION. The meanings of JMP, JMPC and JMPE (rules R90 to R93). -/

namespace Sys2Proof.Machine

/-- JMP (rule R91). -/
def execJmp (imm : Byte) (s : State) : Host.Outcome State Fault Refusal :=
  dispatch0 ⟨s.setPc (jumpTarget imm), 0, .cont⟩

/-- JMPC (rule R92). -/
def execJmpc (imm : Byte) (s : State) : Host.Outcome State Fault Refusal :=
  dispatch0 (jumpIf s.compare (State.setCompare · false) imm s)

/-- JMPE (rule R93). -/
def execJmpe (imm : Byte) (s : State) : Host.Outcome State Fault Refusal :=
  dispatch0 (jumpIf s.error (State.setError · false) imm s)

end Sys2Proof.Machine
end

