-- ==== Sys2Proof/Machine/DataMovement.lean ====
section
/-! DEFINITION. The meanings of LD, LDI, ST and SWP (rules R84 to R87). -/

namespace Sys2Proof.Machine

/-- The executor of LD: the address is the value of the first register, the destination is the second (rule R84). The
bounds check exists and cannot fail (rule R39). -/
def load (s : State) (a d : RegIndex) : Executed :=
  match loadByte s (effectiveAddress (s.reg a)) with
  | some v => ⟨s.setReg d v, 3, .cont⟩
  | none => ⟨s, 3, .fail (.fatal .illegalMemoryAccess)⟩

/-- The executor of ST: the value is that of the first register, the address that of the second (rule R86). The bounds
check exists and cannot fail (rule R39). -/
def store (s : State) (v a : RegIndex) : Executed :=
  match storeByte s (effectiveAddress (s.reg a)) (s.reg v) with
  | some s1 => ⟨s1, 3, .cont⟩
  | none => ⟨s, 3, .fail (.fatal .illegalMemoryAccess)⟩

/-- The executor of SWP: both registers are read, then both are written (rule R87). -/
def exchange (s : State) (a b : RegIndex) : Executed :=
  ⟨(s.setReg a (s.reg b)).setReg b (s.reg a), 3, .cont⟩

/-- LD (rule R84). -/
def execLd (r1 r2 : Byte) (s : State) : Host.Outcome State Fault Refusal :=
  dispatch2 r1 r2 s (load s)

/-- LDI (rule R85). -/
def execLdi (imm r1 : Byte) (s : State) : Host.Outcome State Fault Refusal :=
  dispatch1 r1 s fun d => ⟨s.setReg d imm, 3, .cont⟩

/-- ST (rule R86). -/
def execSt (r1 r2 : Byte) (s : State) : Host.Outcome State Fault Refusal :=
  dispatch2 r1 r2 s (store s)

/-- SWP (rule R87). -/
def execSwp (r1 r2 : Byte) (s : State) : Host.Outcome State Fault Refusal :=
  dispatch2 r1 r2 s (exchange s)

end Sys2Proof.Machine
end

