-- ==== Sys2Proof/Machine/System.lean ====
section
/-! DEFINITION. The meanings of NOP, PRN, HLT and the unknown opcodes (rules R94 to R97). -/

namespace Sys2Proof.Machine

/-- NOP (rule R94). -/
def execNop (s : State) : Host.Outcome State Fault Refusal :=
  dispatch0 ⟨s, 1, .cont⟩

/-- PRN: every byte value is emitted unchanged (rule R95). -/
def execPrn (r1 : Byte) (s : State) : Host.Outcome State Fault Refusal :=
  dispatch1 r1 s fun a => ⟨s.emit (s.reg a), 2, .cont⟩

/-- HLT: the executor returns an advance of 1, which the driver does not apply (rule R96, conflict C4). -/
def execHlt (s : State) : Host.Outcome State Fault Refusal :=
  dispatch0 ⟨s, 1, .halt⟩

/-- Any opcode 0x10 to 0xFF: all 240 values behave the same way (rules R61, R97). -/
def execUnknown (_op : Byte) (s : State) : Host.Outcome State Fault Refusal :=
  dispatch0 ⟨s, 0, .fail (.fatal .unknownOpcode)⟩

end Sys2Proof.Machine
end

