-- ==== Sys2Proof/Config.lean ====
section
/-! DEFINITION. What is fixed for a machine and changed by no step (rule R27): the opcode assignment, the order of the
register fields, and the instruction-set variant. The default values stand in Decode.lean. -/

namespace Sys2Proof

/-- The 16 defined operations, in the order of rule R54. -/
inductive Opcode where
  | nop | add | sub | mul | div | ld | ldi | st | swp | eq | neq | jmp | jmpc | jmpe | prn | hlt
  deriving DecidableEq, Repr

/-- The six decoding shapes (rule R53): which operand fields the parameter window holds. -/
inductive Shape where
  /-- NONE: no operands. -/
  | bare
  /-- R: one register. -/
  | r
  /-- RR: two registers. -/
  | rr
  /-- RRR: three registers. -/
  | rrr
  /-- IR: one immediate, then one register. -/
  | ir
  /-- I: one immediate. -/
  | i
  deriving DecidableEq, Repr

/-- The instruction-set variant the host selects at construction (rules R27, R75). It has no architectural effect. -/
inductive Variant where
  | plain | traced | tracedNoopExempt
  deriving DecidableEq, Repr

/-- The encoding parameters of the spec. `opcodeMap` is OPCODE_MAP, a bijection from the 16 instructions onto 0 to 15
(rule R55, decision D1). `rrOrder` and `rrrOrder` are FIELD_ORDER: register field number `k` stands at window offset
`order k` (rule R53, decision D2). -/
structure Config where
  opcodeMap : Opcode ≃ Fin 16
  rrOrder : Equiv.Perm (Fin 2)
  rrrOrder : Equiv.Perm (Fin 3)

end Sys2Proof
end

