-- ==== Sys2Proof/Syntax.lean ====
section
/-! DEFINITION. The instructions: one constructor for each mnemonic of the opcode table. -/

namespace Sys2Proof

/-- The instruction record of rule R56. A register field is the whole byte of the encoding, valid or not (rule R57);
an immediate is a whole byte (rule R58). Operands stand in the order of rule R63. -/
inductive Instr where
  | nop
  | add (r1 r2 r3 : Byte)
  | sub (r1 r2 r3 : Byte)
  | mul (r1 r2 r3 : Byte)
  | div (r1 r2 r3 : Byte)
  | ld (r1 r2 : Byte)
  | ldi (imm r1 : Byte)
  | st (r1 r2 : Byte)
  | swp (r1 r2 : Byte)
  | eq (r1 r2 : Byte)
  | neq (r1 r2 : Byte)
  | jmp (imm : Byte)
  | jmpc (imm : Byte)
  | jmpe (imm : Byte)
  | prn (r1 : Byte)
  | hlt
  /-- Any opcode byte 0x10 to 0xFF; the record holds only that byte (rule R59). -/
  | unknown (op : Byte)
  deriving DecidableEq, Repr

/-- Why the decoder answers no instruction: the bytes end before the instruction does. Raised by `decode` on a list of
bytes that is too short; safe, since the decoding of a complete instruction never fails (rule R56). -/
inductive DecodeRefusal where
  /-- There is no opcode byte. -/
  | noOpcode
  /-- The parameter window needs more bytes than are left. -/
  | shortWindow
  deriving DecidableEq, Repr

end Sys2Proof
end

