-- ==== Sys2Proof/Machine/Dispatch.lean ====
section
/-! DEFINITION. One arm per instruction: the execute stage of the cycle (rules R67, R74). -/

namespace Sys2Proof.Machine

def exec (i : Instr) (s : State) : Host.Outcome State Fault Refusal :=
  match i with
  | .nop => Sys2Proof.Machine.execNop s
  | .add r1 r2 r3 => Sys2Proof.Machine.execAdd r1 r2 r3 s
  | .sub r1 r2 r3 => Sys2Proof.Machine.execSub r1 r2 r3 s
  | .mul r1 r2 r3 => Sys2Proof.Machine.execMul r1 r2 r3 s
  | .div r1 r2 r3 => Sys2Proof.Machine.execDiv r1 r2 r3 s
  | .ld r1 r2 => Sys2Proof.Machine.execLd r1 r2 s
  | .ldi imm r1 => Sys2Proof.Machine.execLdi imm r1 s
  | .st r1 r2 => Sys2Proof.Machine.execSt r1 r2 s
  | .swp r1 r2 => Sys2Proof.Machine.execSwp r1 r2 s
  | .eq r1 r2 => Sys2Proof.Machine.execEq r1 r2 s
  | .neq r1 r2 => Sys2Proof.Machine.execNeq r1 r2 s
  | .jmp imm => Sys2Proof.Machine.execJmp imm s
  | .jmpc imm => Sys2Proof.Machine.execJmpc imm s
  | .jmpe imm => Sys2Proof.Machine.execJmpe imm s
  | .prn r1 => Sys2Proof.Machine.execPrn r1 s
  | .hlt => Sys2Proof.Machine.execHlt s
  | .unknown op => Sys2Proof.Machine.execUnknown op s

end Sys2Proof.Machine
end

