-- ==== Sys2Proof/WellFormed.lean ====
section
/-! DEFINITION. Which terms of `Instr` are instructions of the machine. -/

namespace Sys2Proof

/-- The one check: an unknown-opcode record holds a byte 0x10 to 0xFF (rules R55, R59). Every register byte and every
immediate is a legal field of an instruction (rules R57, R58): a register byte of 4 or more decodes, and the instruction
fails when it is executed (rule R72). -/
def Instr.wellFormed : Instr → Bool
  | .unknown op => 16 ≤ op.toNat
  | .nop => true
  | .add _ _ _ => true
  | .sub _ _ _ => true
  | .mul _ _ _ => true
  | .div _ _ _ => true
  | .ld _ _ => true
  | .ldi _ _ => true
  | .st _ _ => true
  | .swp _ _ => true
  | .eq _ _ => true
  | .neq _ _ => true
  | .jmp _ => true
  | .jmpc _ => true
  | .jmpe _ => true
  | .prn _ => true
  | .hlt => true

end Sys2Proof
end

