-- ==== Sys2Proof/Decode.lean ====
section
/-! DEFINITION. The decoder, total on any bytes, and the encoder, both for any `Config`; the default configuration; and
the decoding of an opcode-table word. -/

namespace Sys2Proof

/-! ### The default configuration -/

/-- The value of each defined opcode (rule R55; DESIGN CHOICE of the spec, decision D1, log entry 1; unsafe). -/
def opcodeValue : Opcode → Fin 16
  | .nop => 0x0
  | .add => 0x1
  | .sub => 0x2
  | .mul => 0x3
  | .div => 0x4
  | .ld => 0x5
  | .ldi => 0x6
  | .st => 0x7
  | .swp => 0x8
  | .eq => 0x9
  | .neq => 0xA
  | .jmp => 0xB
  | .jmpc => 0xC
  | .jmpe => 0xD
  | .prn => 0xE
  | .hlt => 0xF

/-- The defined opcode of each value, the inverse of `opcodeValue` (rule R55). -/
def opcodeAt (k : Fin 16) : Opcode :=
  (#v[.nop, .add, .sub, .mul, .div, .ld, .ldi, .st, .swp, .eq, .neq, .jmp, .jmpc, .jmpe, .prn, .hlt] : Vector Opcode 16)[k]

/-- The default configuration: OPCODE_MAP of decision D1, and the register fields in written order (decision D2,
log entry 2; unsafe). -/
def standard : Config where
  opcodeMap :=
    { toFun := opcodeValue
      invFun := opcodeAt
      left_inv := fun o => by cases o <;> rfl
      right_inv := by decide }
  rrOrder := Equiv.refl _
  rrrOrder := Equiv.refl _

/-! ### Shapes and lengths -/

/-- The shape of each defined instruction (rule R54). -/
def Opcode.shape : Opcode → Shape
  | .nop => .bare
  | .add => .rrr
  | .sub => .rrr
  | .mul => .rrr
  | .div => .rrr
  | .ld => .rr
  | .ldi => .ir
  | .st => .rr
  | .swp => .rr
  | .eq => .rr
  | .neq => .rr
  | .jmp => .i
  | .jmpc => .i
  | .jmpe => .i
  | .prn => .r
  | .hlt => .bare

/-- The number of window bytes of a shape (rules R53, R54). -/
def Shape.windowLen : Shape → Nat
  | .bare => 0
  | .r => 1
  | .rr => 2
  | .rrr => 3
  | .ir => 2
  | .i => 1

/-- The defined operation an opcode byte selects, none for 0x10 to 0xFF; all 8 bits are read (rule R55). -/
def opcodeOf (cfg : Config) (op : Byte) : Option Opcode :=
  if h : op.toNat < 16 then some (cfg.opcodeMap.symm ⟨op.toNat, h⟩) else none

/-- The opcode byte of a defined operation (rule R55). -/
def opcodeByte (cfg : Config) (o : Opcode) : Byte :=
  BitVec.ofNat 8 (cfg.opcodeMap o).val

/-- `L(op)`, the parameter-window length; it depends on the opcode byte alone, and is 0 for every unknown opcode
(rules R51, R54, R59). -/
def windowLen (cfg : Config) (op : Byte) : Nat :=
  match opcodeOf cfg op with
  | some o => o.shape.windowLen
  | none => 0

/-! ### Decoding -/

/-- Byte `k` of a window. Fetch and `decode` only pass windows of the full length `L(op)`, so the default is never
read (rules R34, R56). -/
def windowByte (w : List Byte) (k : Nat) : Byte :=
  w.getD k 0

/-- Register field `k` of an RR window (rule R53). -/
def rrField (cfg : Config) (w : List Byte) (k : Fin 2) : Byte :=
  windowByte w (cfg.rrOrder k).val

/-- Register field `k` of an RRR window (rule R53). -/
def rrrField (cfg : Config) (w : List Byte) (k : Fin 3) : Byte :=
  windowByte w (cfg.rrrOrder k).val

/-- The instruction record of an opcode byte and its window: total, since decoding never itself fails (rule R56). The
immediate stands before the register in shape IR (rule R53). -/
def decodeFields (cfg : Config) (op : Byte) (w : List Byte) : Instr :=
  match opcodeOf cfg op with
  | none => .unknown op
  | some .nop => .nop
  | some .add => .add (rrrField cfg w 0) (rrrField cfg w 1) (rrrField cfg w 2)
  | some .sub => .sub (rrrField cfg w 0) (rrrField cfg w 1) (rrrField cfg w 2)
  | some .mul => .mul (rrrField cfg w 0) (rrrField cfg w 1) (rrrField cfg w 2)
  | some .div => .div (rrrField cfg w 0) (rrrField cfg w 1) (rrrField cfg w 2)
  | some .ld => .ld (rrField cfg w 0) (rrField cfg w 1)
  | some .ldi => .ldi (windowByte w 0) (windowByte w 1)
  | some .st => .st (rrField cfg w 0) (rrField cfg w 1)
  | some .swp => .swp (rrField cfg w 0) (rrField cfg w 1)
  | some .eq => .eq (rrField cfg w 0) (rrField cfg w 1)
  | some .neq => .neq (rrField cfg w 0) (rrField cfg w 1)
  | some .jmp => .jmp (windowByte w 0)
  | some .jmpc => .jmpc (windowByte w 0)
  | some .jmpe => .jmpe (windowByte w 0)
  | some .prn => .prn (windowByte w 0)
  | some .hlt => .hlt

/-- Decode the instruction at the head of a list of bytes, and answer the bytes after it; refused by name when the bytes
end too early (rules R51, R56). -/
def decodeWith (cfg : Config) : List Byte → Except DecodeRefusal (Instr × List Byte)
  | [] => .error .noOpcode
  | op :: rest =>
    if windowLen cfg op ≤ rest.length then
      .ok (decodeFields cfg op (rest.take (windowLen cfg op)), rest.drop (windowLen cfg op))
    else
      .error .shortWindow

/-- The decoder of the default configuration. -/
def decode (bytes : List Byte) : Except DecodeRefusal (Instr × List Byte) :=
  decodeWith standard bytes

/-! ### Encoding -/

/-- The window of shape RR: the field that stands at each offset (rule R53). -/
def rrWindow (cfg : Config) (r1 r2 : Byte) : List Byte :=
  let field : Fin 2 → Byte := fun k => if k = 0 then r1 else r2
  [field (cfg.rrOrder.symm 0), field (cfg.rrOrder.symm 1)]

/-- The window of shape RRR (rule R53). -/
def rrrWindow (cfg : Config) (r1 r2 r3 : Byte) : List Byte :=
  let field : Fin 3 → Byte := fun k => if k = 0 then r1 else if k = 1 then r2 else r3
  [field (cfg.rrrOrder.symm 0), field (cfg.rrrOrder.symm 1), field (cfg.rrrOrder.symm 2)]

/-- The bytes of an instruction in increasing address order, the opcode first (rules R40, R51, R53, R55). -/
def encodeWith (cfg : Config) : Instr → List Byte
  | .nop => [opcodeByte cfg .nop]
  | .add r1 r2 r3 => opcodeByte cfg .add :: rrrWindow cfg r1 r2 r3
  | .sub r1 r2 r3 => opcodeByte cfg .sub :: rrrWindow cfg r1 r2 r3
  | .mul r1 r2 r3 => opcodeByte cfg .mul :: rrrWindow cfg r1 r2 r3
  | .div r1 r2 r3 => opcodeByte cfg .div :: rrrWindow cfg r1 r2 r3
  | .ld r1 r2 => opcodeByte cfg .ld :: rrWindow cfg r1 r2
  | .ldi imm r1 => [opcodeByte cfg .ldi, imm, r1]
  | .st r1 r2 => opcodeByte cfg .st :: rrWindow cfg r1 r2
  | .swp r1 r2 => opcodeByte cfg .swp :: rrWindow cfg r1 r2
  | .eq r1 r2 => opcodeByte cfg .eq :: rrWindow cfg r1 r2
  | .neq r1 r2 => opcodeByte cfg .neq :: rrWindow cfg r1 r2
  | .jmp imm => [opcodeByte cfg .jmp, imm]
  | .jmpc imm => [opcodeByte cfg .jmpc, imm]
  | .jmpe imm => [opcodeByte cfg .jmpe, imm]
  | .prn r1 => [opcodeByte cfg .prn, r1]
  | .hlt => [opcodeByte cfg .hlt]
  | .unknown op => [op]

/-- The encoder of the default configuration. -/
def encode (i : Instr) : List Byte :=
  encodeWith standard i

/-! ### Facts about an instruction read from its encoding -/

/-- The length of an instruction in bytes (rule R52). -/
def Instr.length : Instr → Nat
  | .nop => 1
  | .add _ _ _ => 4
  | .sub _ _ _ => 4
  | .mul _ _ _ => 4
  | .div _ _ _ => 4
  | .ld _ _ => 3
  | .ldi _ _ => 3
  | .st _ _ => 3
  | .swp _ _ => 3
  | .eq _ _ => 3
  | .neq _ _ => 3
  | .jmp _ => 2
  | .jmpc _ => 2
  | .jmpe _ => 2
  | .prn _ => 2
  | .hlt => 1
  | .unknown _ => 1

/-- `Regs(ins)`: the register fields the record holds (rule R72). -/
def Instr.regs : Instr → List Byte
  | .nop => []
  | .add r1 r2 r3 => [r1, r2, r3]
  | .sub r1 r2 r3 => [r1, r2, r3]
  | .mul r1 r2 r3 => [r1, r2, r3]
  | .div r1 r2 r3 => [r1, r2, r3]
  | .ld r1 r2 => [r1, r2]
  | .ldi _ r1 => [r1]
  | .st r1 r2 => [r1, r2]
  | .swp r1 r2 => [r1, r2]
  | .eq r1 r2 => [r1, r2]
  | .neq r1 r2 => [r1, r2]
  | .jmp _ => []
  | .jmpc _ => []
  | .jmpe _ => []
  | .prn r1 => [r1]
  | .hlt => []
  | .unknown _ => []

/-! ### Opcode-table words -/

/-- The four bytes, first at the lowest address, of an instruction whose bits are `w`, numbered as
spec/opcode_table.json numbers them; every bit from `nbits` on is 0. Four bytes is the longest instruction (rule R52). -/
def tableBytes (nbits w : Nat) : List Byte :=
  (List.range 4).map fun k => BitVec.ofNat 8 ((w % 2 ^ nbits) / 2 ^ (8 * k))

/-- The instruction the decoder reads from an opcode-table word. -/
def decodeTableWord (nbits w : Nat) : Option Instr :=
  match decode (tableBytes nbits w) with
  | .ok (i, _) => some i
  | .error _ => none

end Sys2Proof
end

