-- ==== Sys2Proof/Machine/Fetch.lean ====
section
/-! DEFINITION. The fetch, window and decode stages of the cycle (rules R69, R70, R71), and the placing of an opcode-table
word where the next fetch reads. -/

namespace Sys2Proof.Machine

/-- Fetch: the opcode byte at the program counter; none when the program counter ran past the end (rule R69). -/
def fetchOpcode (s : State) : Option Byte :=
  (memRead s.rom s.pc.toNat 1).bind List.head?

/-- The parameter window: `L(op)` bytes from pc + 1; none when they do not fit (rule R70). -/
def fetchWindow (cfg : Config) (op : Byte) (s : State) : Option (List Byte) :=
  memRead s.rom (s.pc.toNat + 1) (windowLen cfg op)

/-- The instruction at the program counter, or the fatal kind the stage reports. The window comes before decode and
register validation (rules R67, R70, R102). -/
def fetch (cfg : Config) (s : State) : Except FatalKind Instr :=
  match fetchOpcode s with
  | none => .error .illegalMemoryAccess
  | some op =>
    match fetchWindow cfg op s with
    | none => .error .illegalMemoryAccess
    | some w => .ok (decodeFields cfg op w)

/-- Write bytes into program memory from an address on, leaving out those past the end of the space. This is the host's
filling of program memory (rule R117); no instruction does it. -/
def placeInRom (m : Memory) (addr : Nat) (bytes : List Byte) : Memory :=
  Memory.writeBytes m addr (bytes.take (spaceSize - addr))

/-- The bytes of program memory from the program counter to the end of the space. -/
def romBytesFrom (s : State) : List Byte :=
  (List.range (spaceSize - s.pc.toNat)).map fun k => Memory.read s.rom (s.pc.toNat + k)

end Sys2Proof.Machine
end

