-- ==== Sys2Proof/Machine/Step.lean ====
section
/-! DEFINITION. One step of the core is one cycle (rule R67), for any encoding parameters and for the default ones. -/

namespace Sys2Proof.Machine

/-- One cycle under the encoding parameters `cfg`. A state that is not RUNNING has no step (rule R68). -/
def stepWith (cfg : Config) (s : State) : Host.Outcome State Fault Refusal :=
  match s.status with
  | .running =>
    match fetch cfg s with
    | .ok i => exec i s
    | .error k => .next (fatal k s)
  | st => .fault (.terminal st)

/-- One cycle of the core, under the default configuration. -/
def step (s : State) : Host.Outcome State Fault Refusal :=
  stepWith standard s

/-- The state with the instruction of an opcode-table word stored in program memory where the next step fetches. It stands
for the host's filling of program memory at construction (rule R117, log entry 7). -/
def State.withFetchWord (s : State) (nbits w : Nat) : State :=
  { s with rom := placeInRom s.rom s.pc.toNat (tableBytes nbits w) }

end Sys2Proof.Machine
end

