-- ==== Sys2Proof/Machine/Assembly.lean ====
section
/-! DEFINITION. The assembler syntax of rules R63, R64 and R65: writing an instruction, reading a source text, and
assembling it into bytes. No step uses it. Its conventions beyond the rules are log entry 13. -/

namespace Sys2Proof.Machine

/-! ### Writing instructions -/

/-- The mnemonic of each defined operation (rules R54, R63, decision D11). -/
def mnemonic : Opcode → String
  | .nop => "NOP"
  | .add => "ADD"
  | .sub => "SUB"
  | .mul => "MUL"
  | .div => "DIV"
  | .ld => "LD"
  | .ldi => "LDI"
  | .st => "ST"
  | .swp => "SWP"
  | .eq => "EQ"
  | .neq => "NEQ"
  | .jmp => "JMP"
  | .jmpc => "JMPC"
  | .jmpe => "JMPE"
  | .prn => "PRN"
  | .hlt => "HLT"

/-- The name of a register byte: X, Y, Z, W, and R<n> for an invalid one (rule R64). -/
def regName (r : Byte) : String :=
  if r = 0 then "X" else if r = 1 then "Y" else if r = 2 then "Z" else if r = 3 then "W" else "R" ++ toString r.toNat

/-- A mnemonic, then operands separated by commas (rule R63). -/
def renderOp (o : Opcode) (args : List String) : String :=
  match args with
  | [] => mnemonic o
  | a :: rest => rest.foldl (fun text b => text ++ ", " ++ b) (mnemonic o ++ " " ++ a)

/-- An instruction as the assembler writes it, operands in encoding order; an unknown opcode is a raw byte (rule R63). -/
def render : Instr → String
  | .nop => renderOp .nop []
  | .add r1 r2 r3 => renderOp .add [regName r1, regName r2, regName r3]
  | .sub r1 r2 r3 => renderOp .sub [regName r1, regName r2, regName r3]
  | .mul r1 r2 r3 => renderOp .mul [regName r1, regName r2, regName r3]
  | .div r1 r2 r3 => renderOp .div [regName r1, regName r2, regName r3]
  | .ld r1 r2 => renderOp .ld [regName r1, regName r2]
  | .ldi imm r1 => renderOp .ldi [toString imm.toNat, regName r1]
  | .st r1 r2 => renderOp .st [regName r1, regName r2]
  | .swp r1 r2 => renderOp .swp [regName r1, regName r2]
  | .eq r1 r2 => renderOp .eq [regName r1, regName r2]
  | .neq r1 r2 => renderOp .neq [regName r1, regName r2]
  | .jmp imm => renderOp .jmp [toString imm.toNat]
  | .jmpc imm => renderOp .jmpc [toString imm.toNat]
  | .jmpe imm => renderOp .jmpe [toString imm.toNat]
  | .prn r1 => renderOp .prn [regName r1]
  | .hlt => renderOp .hlt []
  | .unknown op => ".byte " ++ toString op.toNat

/-! ### Source lines and their assembly -/

/-- An operand of a source line: a register byte, a number, or a label (rules R63, R64). -/
inductive Operand where
  | reg (r : Byte)
  | number (v : Byte)
  | label (name : String)
  deriving DecidableEq, Repr

/-- What a source line places: an instruction, or a raw byte (rule R63). -/
inductive SourceItem where
  | op (o : Opcode) (args : List Operand)
  | byte (b : Byte)
  deriving DecidableEq, Repr

/-- A source line: the label that marks it, if any, and what it places, if anything. -/
structure SourceLine where
  label : Option String
  item : Option SourceItem
  deriving DecidableEq, Repr

/-- The source item that writes an instruction: operands in encoding order, an unknown opcode as a raw byte
(rule R63). -/
def sourceItem : Instr → SourceItem
  | .nop => .op .nop []
  | .add r1 r2 r3 => .op .add [.reg r1, .reg r2, .reg r3]
  | .sub r1 r2 r3 => .op .sub [.reg r1, .reg r2, .reg r3]
  | .mul r1 r2 r3 => .op .mul [.reg r1, .reg r2, .reg r3]
  | .div r1 r2 r3 => .op .div [.reg r1, .reg r2, .reg r3]
  | .ld r1 r2 => .op .ld [.reg r1, .reg r2]
  | .ldi imm r1 => .op .ldi [.number imm, .reg r1]
  | .st r1 r2 => .op .st [.reg r1, .reg r2]
  | .swp r1 r2 => .op .swp [.reg r1, .reg r2]
  | .eq r1 r2 => .op .eq [.reg r1, .reg r2]
  | .neq r1 r2 => .op .neq [.reg r1, .reg r2]
  | .jmp imm => .op .jmp [.number imm]
  | .jmpc imm => .op .jmpc [.number imm]
  | .jmpe imm => .op .jmpe [.number imm]
  | .prn r1 => .op .prn [.reg r1]
  | .hlt => .op .hlt []
  | .unknown op => .byte op

/-- The number of bytes an item places (rule R52). -/
def SourceItem.size : SourceItem → Nat
  | .op o _ => 1 + o.shape.windowLen
  | .byte _ => 1

/-- The number of bytes a line places. -/
def SourceLine.size (line : SourceLine) : Nat :=
  match line.item with
  | some item => item.size
  | none => 0

/-- The absolute program-memory address of what each label marks, the first line standing at `addr` (rule R63). -/
def labelTable : Nat → List SourceLine → List (String × Nat)
  | _, [] => []
  | addr, line :: lines =>
    let rest := labelTable (addr + line.size) lines
    match line.label with
    | some name => (name, addr) :: rest
    | none => rest

/-- The byte an immediate or target operand stands for: a number is itself, a label its address, which must be a byte
(rule R63). -/
def immediateOf (labels : List (String × Nat)) : Operand → Option Byte
  | .reg _ => none
  | .number v => some v
  | .label name =>
    match labels.lookup name with
    | some addr => if addr < spaceSize then some (BitVec.ofNat 8 addr) else none
    | none => none

/-- The instruction of an operation and its operands, in encoding order; none when they do not fit its shape
(rule R63). -/
def instrOf (labels : List (String × Nat)) : Opcode → List Operand → Option Instr
  | .nop, [] => some .nop
  | .add, [.reg a, .reg b, .reg d] => some (.add a b d)
  | .sub, [.reg a, .reg b, .reg d] => some (.sub a b d)
  | .mul, [.reg a, .reg b, .reg d] => some (.mul a b d)
  | .div, [.reg a, .reg b, .reg d] => some (.div a b d)
  | .ld, [.reg a, .reg d] => some (.ld a d)
  | .ldi, [imm, .reg d] => (immediateOf labels imm).map (Instr.ldi · d)
  | .st, [.reg v, .reg a] => some (.st v a)
  | .swp, [.reg a, .reg b] => some (.swp a b)
  | .eq, [.reg a, .reg b] => some (.eq a b)
  | .neq, [.reg a, .reg b] => some (.neq a b)
  | .jmp, [target] => (immediateOf labels target).map Instr.jmp
  | .jmpc, [target] => (immediateOf labels target).map Instr.jmpc
  | .jmpe, [target] => (immediateOf labels target).map Instr.jmpe
  | .prn, [.reg a] => some (.prn a)
  | .hlt, [] => some .hlt
  | _, _ => none

/-- The bytes a line places under a label table. -/
def lineBytes (cfg : Config) (labels : List (String × Nat)) (line : SourceLine) : Option (List Byte) :=
  match line.item with
  | none => some []
  | some (.byte b) => some [b]
  | some (.op o args) => (instrOf labels o args).map (encodeWith cfg)

/-- Assemble source lines into the bytes of program memory from address 0; none when an operand does not fit, a label is
not marked, or two lines carry the same label (rule R63). -/
def assembleWith (cfg : Config) (lines : List SourceLine) : Option (List Byte) :=
  let labels := labelTable 0 lines
  if (labels.map Prod.fst).Nodup then
    (lines.mapM (lineBytes cfg labels)).map List.flatten
  else
    none

/-- Assemble under the default configuration. -/
def assemble (lines : List SourceLine) : Option (List Byte) :=
  assembleWith standard lines

/-! ### Reading source text -/

/-- White space inside a line. -/
def isBlank (c : Char) : Bool := c == ' ' || c == '\t' || c == '\r'

/-- A text without white space at its ends. -/
def trimBlank (text : List Char) : List Char :=
  ((text.dropWhile isBlank).reverse.dropWhile isBlank).reverse

/-- The value of a digit character in base 16, none for another character. -/
def digitValue (c : Char) : Option Nat :=
  if '0' ≤ c ∧ c ≤ '9' then some (c.toNat - '0'.toNat)
  else if 'a' ≤ c ∧ c ≤ 'f' then some (c.toNat - 'a'.toNat + 10)
  else if 'A' ≤ c ∧ c ≤ 'F' then some (c.toNat - 'A'.toNat + 10)
  else none

/-- The number a text of digits writes in a base, after the digits already read. -/
def digitsValue (base : Nat) : Nat → List Char → Option Nat
  | acc, [] => some acc
  | acc, c :: cs =>
    match digitValue c with
    | some d => if d < base then digitsValue base (base * acc + d) cs else none
    | none => none

/-- A number, decimal or hex with `0x`, in the range of a byte (rule R63). -/
def readByte (text : List Char) : Option Byte :=
  let value :=
    match text with
    | [] => none
    | '0' :: 'x' :: c :: cs => digitsValue 16 0 (c :: cs)
    | c :: cs => digitsValue 10 0 (c :: cs)
  match value with
  | some v => if v < 256 then some (BitVec.ofNat 8 v) else none
  | none => none

/-- A register name: X, Y, Z, W, or R and a decimal number 0 to 255 (rule R64). -/
def readRegister : List Char → Option Byte
  | ['X'] => some 0
  | ['Y'] => some 1
  | ['Z'] => some 2
  | ['W'] => some 3
  | 'R' :: c :: cs =>
    match digitsValue 10 0 (c :: cs) with
    | some v => if v < 256 then some (BitVec.ofNat 8 v) else none
    | none => none
  | _ => none

/-- A label's name: letters, digits and underscores, a digit not first. -/
def readName (text : List Char) : Option String :=
  match text with
  | [] => none
  | c :: _ =>
    if !c.isDigit && text.all (fun d => d.isAlphanum || d == '_') then some (String.ofList text) else none

/-- An operand: a register if it reads as one, else a number, else a label (rules R63, R64). -/
def readOperand (text : List Char) : Option Operand :=
  match readRegister text with
  | some r => some (.reg r)
  | none =>
    match readByte text with
    | some v => some (.number v)
    | none => (readName text).map Operand.label

/-- The operation a mnemonic names (rule R63; there are no pseudo-instructions, rule R65). -/
def readMnemonic (text : List Char) : Option Opcode :=
  [Opcode.nop, .add, .sub, .mul, .div, .ld, .ldi, .st, .swp, .eq, .neq, .jmp, .jmpc, .jmpe, .prn, .hlt].find?
    fun o => (mnemonic o).toList == text

/-- What a line places: a mnemonic with operands separated by commas, or `.byte` with a number (rule R63). -/
def readItem (text : List Char) : Option SourceItem :=
  let word := text.takeWhile (fun c => !isBlank c)
  let rest := trimBlank (text.dropWhile (fun c => !isBlank c))
  if word == ".byte".toList then
    (readByte rest).map SourceItem.byte
  else
    match readMnemonic word with
    | none => none
    | some o =>
      if rest.isEmpty then some (.op o [])
      else ((rest.splitOn ',').mapM (fun part => readOperand (trimBlank part))).map (SourceItem.op o)

/-- A source line: a comment starts at a semicolon, a label stands before a colon (rule R63). -/
def readLine (text : List Char) : Option SourceLine :=
  let code := trimBlank (text.takeWhile (· != ';'))
  let before := code.takeWhile (· != ':')
  if before.length < code.length then
    match readName (trimBlank before) with
    | none => none
    | some name =>
      let after := trimBlank (code.drop (before.length + 1))
      if after.isEmpty then some ⟨some name, none⟩ else (readItem after).map fun item => ⟨some name, some item⟩
  else if code.isEmpty then
    some ⟨none, none⟩
  else
    (readItem code).map fun item => ⟨none, some item⟩

/-- The lines of a source text. -/
def readSource (text : String) : Option (List SourceLine) :=
  (text.toList.splitOn '\n').mapM readLine

/-- Assemble a source text into bytes (rule R63). -/
def assembleText (text : String) : Option (List Byte) :=
  (readSource text).bind assemble

end Sys2Proof.Machine
end

