-- ==== Sys2Proof/Machine/HostPort.lean ====
section
/-! DEFINITION. The host's side of the core: construction, the status code, the final dump, and a run under the caller's
fuel (rules R77, R78, R99, R116, R117, R118). -/

namespace Sys2Proof.Machine

/-- `Construct(img, variant)`: the initial state of a program image of 1 to 256 bytes; no other image has one (rules R117,
R118, decision D15). The variant is configuration with no architectural effect (rules R27, R75), so it leaves no trace in
the state. -/
def construct (img : List Byte) (_variant : Variant) : Option State :=
  if 1 ≤ img.length ∧ img.length ≤ spaceSize then
    some { State.reset with rom := Memory.writeBytes [] 0 img }
  else
    none

/-- The 3-bit status code of the host interface (rule R99; DESIGN CHOICE of the spec, decision D8, log entry 10). -/
def statusCode : Status → BitVec 3
  | .running => 0
  | .halted => 1
  | .errored .illegalMemoryAccess => 2
  | .errored .registerError => 3
  | .errored .unknownOpcode => 4

/-- The code of each kind an executor can signal: the fatal kinds have their status code, DivideByZero has the event code
5, which never appears as a status (rule R99). -/
def eventCode : ErrorKind → BitVec 3
  | .fatal k => statusCode (.errored k)
  | .divideByZero => 5

/-- The code of the host loader's InvalidProgramLength, which the core never raises (rules R99, R109). -/
def invalidProgramLengthCode : BitVec 3 := 6

/-- The final dump: the register and flag snapshot with the program counter (decision D19), then all of program memory,
then all of data memory (rules R28, R78). -/
structure FinalDump where
  pc : Pc
  x : Vector Byte 4
  compare : Bool
  error : Bool
  rom : List Byte
  ram : List Byte
  deriving DecidableEq, Repr

/-- All 256 bytes of a space in increasing address order. -/
def Memory.allBytes (m : Memory) : List Byte :=
  (List.range spaceSize).map (Memory.read m)

/-- What the host reads once the run has ended, and the outcome reported; none while the core is RUNNING (rules R78,
R116). -/
def finalDump (s : State) : Option (FinalDump × Status) :=
  match s.status with
  | .running => none
  | st =>
    some ({ pc := s.pc, x := s.x, compare := s.compare, error := s.error,
            rom := Memory.allBytes s.rom, ram := Memory.allBytes s.ram }, st)

/-- A run under caller-supplied fuel: it stops at the first terminal state; running out of fuel is no outcome of the core
(rules R77, R78, decision D17). -/
def runFuel : Nat → State → State
  | 0, s => s
  | n + 1, s =>
    match step s with
    | .next t => runFuel n t
    | .fault _ => s
    | .refused _ => s

end Sys2Proof.Machine
end

