-- ==== Sys2Proof/Safety.lean ====
section
/-! DEFINITION. What counts as a safe state and which state an instruction may write, in the terms the statements use. -/

namespace Sys2Proof.Machine

/-- The model's invariant: the program counter is 0 to 256 (rule R16), and both memories are in canonical form. -/
structure State.Inv (s : State) : Prop where
  pc_le : s.pc.toNat ≤ spaceSize
  rom_wf : Memory.wf s.rom
  ram_wf : Memory.wf s.ram

/-- The register bytes an instruction may write: the "registers written" column of rule R29. -/
def destinations : Instr → List Byte
  | .nop => []
  | .add _ _ r3 => [r3]
  | .sub _ _ r3 => [r3]
  | .mul _ _ r3 => [r3]
  | .div _ _ r3 => [r3]
  | .ld _ r2 => [r2]
  | .ldi _ r1 => [r1]
  | .st _ _ => []
  | .swp r1 r2 => [r1, r2]
  | .eq _ _ => []
  | .neq _ _ => []
  | .jmp _ => []
  | .jmpc _ => []
  | .jmpe _ => []
  | .prn _ => []
  | .hlt => []
  | .unknown _ => []

/-- The instruction is a control transfer: the only kind that may lower the program counter (rule R18). -/
def isJump : Instr → Bool
  | .jmp _ => true
  | .jmpc _ => true
  | .jmpe _ => true
  | .nop => false
  | .add _ _ _ => false
  | .sub _ _ _ => false
  | .mul _ _ _ => false
  | .div _ _ _ => false
  | .ld _ _ => false
  | .ldi _ _ => false
  | .st _ _ => false
  | .swp _ _ => false
  | .eq _ _ => false
  | .neq _ _ => false
  | .prn _ => false
  | .hlt => false
  | .unknown _ => false

/-- The two states agree on everything but data memory. -/
def agreeButRam (s t : State) : Prop := { t with ram := s.ram } = s

/-- The two states agree on everything but the output port. -/
def agreeButOut (s t : State) : Prop := { t with out := s.out } = s

end Sys2Proof.Machine
end

