-- ==== Sys2Proof/Certificates/Slice0/Obligations.lean ====
section
/-! DEFINITION. The statements for the provers. Those that rest on a decision of the spec or on a choice of the model say
so and name the log entry. -/

open Sys2Proof Sys2Proof.Machine

/-- 41_arithmetic.md, ADD: x[r3] takes (x[r1] + x[r2]) mod 256; operands are read before the write (the spec's
decision D16, log entry 14), unsigned by decision D5 (log entry 5). -/
def Obligations.AddWritesSumModulo256 : Prop :=
  ∀ (r1 r2 r3 : Byte) (h1 : r1.toNat < 4) (h2 : r2.toNat < 4) (h3 : r3.toNat < 4) (s : State),
    exec (.add r1 r2 r3) s = .next { s with
      x := s.x.set r3.toNat (BitVec.ofNat 8 ((s.x[r1.toNat].toNat + s.x[r2.toNat].toNat) % 256)) h3
      pc := s.pc + 4 }

/-- 41_arithmetic.md, SUB: x[r3] takes (x[r1] - x[r2]) mod 256; the integer difference, then reduced into 0 to 255;
operands are read before the write (decision D16, log entry 14). -/
def Obligations.SubWritesDifferenceModulo256 : Prop :=
  ∀ (r1 r2 r3 : Byte) (h1 : r1.toNat < 4) (h2 : r2.toNat < 4) (h3 : r3.toNat < 4) (s : State),
    exec (.sub r1 r2 r3) s = .next { s with
      x := s.x.set r3.toNat (BitVec.ofInt 8 (((s.x[r1.toNat].toNat : Int) - s.x[r2.toNat].toNat) % 256)) h3
      pc := s.pc + 4 }

/-- 41_arithmetic.md, MUL: x[r3] takes (x[r1] * x[r2]) mod 256; the low byte of the product; operands are read before
the write (decision D16, log entry 14). -/
def Obligations.MulWritesProductModulo256 : Prop :=
  ∀ (r1 r2 r3 : Byte) (h1 : r1.toNat < 4) (h2 : r2.toNat < 4) (h3 : r3.toNat < 4) (s : State),
    exec (.mul r1 r2 r3) s = .next { s with
      x := s.x.set r3.toNat (BitVec.ofNat 8 ((s.x[r1.toNat].toNat * s.x[r2.toNat].toNat) % 256)) h3
      pc := s.pc + 4 }

/-- 41_arithmetic.md, DIV with a nonzero divisor value: the unsigned quotient (the spec's decision D5, log entry 5). -/
def Obligations.DivWritesUnsignedQuotient : Prop :=
  ∀ (r1 r2 r3 : Byte) (h1 : r1.toNat < 4) (h2 : r2.toNat < 4) (h3 : r3.toNat < 4) (s : State),
    s.x[r2.toNat] ≠ 0 →
    exec (.div r1 r2 r3) s = .next { s with
      x := s.x.set r3.toNat (BitVec.ofNat 8 (s.x[r1.toNat].toNat / s.x[r2.toNat].toNat)) h3
      pc := s.pc + 4 }

/-- 41_arithmetic.md, DIV with a divisor value of 0: only E and pc change (the destination unchanged by the spec's
decision D18, log entry 8). -/
def Obligations.DivideByZeroSetsErrorAndContinues : Prop :=
  ∀ (r1 r2 r3 : Byte) (h1 : r1.toNat < 4) (h2 : r2.toNat < 4) (h3 : r3.toNat < 4) (s : State),
    s.x[r2.toNat] = 0 →
    exec (.div r1 r2 r3) s = .next { s with
      error := true
      pc := s.pc + 4 }

/-- 42_data_movement.md, LD: the first field is the address register, the second the destination; the access cannot
fail. -/
def Obligations.LdLoadsTheAddressedByte : Prop :=
  ∀ (r1 r2 : Byte) (h1 : r1.toNat < 4) (h2 : r2.toNat < 4) (s : State),
    exec (.ld r1 r2) s = .next { s with
      x := s.x.set r2.toNat (Memory.read s.ram (effectiveAddress s.x[r1.toNat])) h2
      pc := s.pc + 3 }

/-- 42_data_movement.md, LDI: every immediate loads as it is. -/
def Obligations.LdiLoadsTheImmediate : Prop :=
  ∀ (imm r1 : Byte) (h1 : r1.toNat < 4) (s : State),
    exec (.ldi imm r1) s = .next { s with
      x := s.x.set r1.toNat imm h1
      pc := s.pc + 3 }

/-- 42_data_movement.md, ST: the first field is the value register, the second the address register; exactly one byte
changes. The canonical form is the model's choice (log entry 7). -/
def Obligations.StStoresOneByte : Prop :=
  ∀ (r1 r2 : Byte) (h1 : r1.toNat < 4) (h2 : r2.toNat < 4) (s : State),
    ∃ m : Memory,
      exec (.st r1 r2) s = .next { s with ram := m, pc := s.pc + 3 } ∧
      (Memory.wf s.ram → Memory.wf m ∧ Memory.read m (effectiveAddress s.x[r2.toNat]) = s.x[r1.toNat]) ∧
      ∀ a, a ≠ effectiveAddress s.x[r2.toNat] → Memory.read m a = Memory.read s.ram a

/-- 42_data_movement.md, SWP: both are read, then both are written. -/
def Obligations.SwpExchangesTwoRegisters : Prop :=
  ∀ (r1 r2 : Byte) (h1 : r1.toNat < 4) (h2 : r2.toNat < 4) (s : State),
    exec (.swp r1 r2) s = .next { s with
      x := (s.x.set r1.toNat s.x[r2.toNat] h1).set r2.toNat s.x[r1.toNat] h2
      pc := s.pc + 3 }

/-- 43_compare.md, EQ: C is always overwritten; the full 8-bit values are compared. -/
def Obligations.EqSetsCompareOnEquality : Prop :=
  ∀ (r1 r2 : Byte) (h1 : r1.toNat < 4) (h2 : r2.toNat < 4) (s : State),
    exec (.eq r1 r2) s = .next { s with
      compare := decide (s.x[r1.toNat] = s.x[r2.toNat])
      pc := s.pc + 3 }

/-- 43_compare.md, NEQ: C is always overwritten; the full 8-bit values are compared. -/
def Obligations.NeqSetsCompareOnInequality : Prop :=
  ∀ (r1 r2 : Byte) (h1 : r1.toNat < 4) (h2 : r2.toNat < 4) (s : State),
    exec (.neq r1 r2) s = .next { s with
      compare := decide (s.x[r1.toNat] ≠ s.x[r2.toNat])
      pc := s.pc + 3 }

/-- 44_control.md, JMP. -/
def Obligations.JmpGoesToTheImmediate : Prop :=
  ∀ (imm : Byte) (s : State),
    exec (.jmp imm) s = .next { s with pc := BitVec.ofNat 9 imm.toNat }

/-- 44_control.md, JMPC: the flag is consumed by a taken jump. -/
def Obligations.JmpcConsumesCompare : Prop :=
  ∀ (imm : Byte) (s : State),
    exec (.jmpc imm) s = .next
      (if s.compare = true then { s with pc := BitVec.ofNat 9 imm.toNat, compare := false }
        else { s with pc := s.pc + 2 })

/-- 44_control.md, JMPE: the flag is consumed by a taken jump. -/
def Obligations.JmpeConsumesError : Prop :=
  ∀ (imm : Byte) (s : State),
    exec (.jmpe imm) s = .next
      (if s.error = true then { s with pc := BitVec.ofNat 9 imm.toNat, error := false }
        else { s with pc := s.pc + 2 })

/-- 45_system.md, NOP. -/
def Obligations.NopOnlyAdvances : Prop :=
  ∀ s : State, exec .nop s = .next { s with pc := s.pc + 1 }

/-- 45_system.md, PRN: the port carries the byte (the spec's decision D7, log entry 10). -/
def Obligations.PrnEmitsOneByte : Prop :=
  ∀ (r1 : Byte) (h1 : r1.toNat < 4) (s : State),
    exec (.prn r1) s = .next { s with
      out := s.out ++ [s.x[r1.toNat]]
      pc := s.pc + 2 }

/-- 45_system.md, HLT; pc and E by conflicts C4 and C5 (log entry 9). -/
def Obligations.HltHaltsInPlace : Prop :=
  ∀ s : State, exec .hlt s = .next { s with status := .halted }

/-- Rule R97: all 240 values behave the same way, and the byte after the opcode is never read. -/
def Obligations.UnknownOpcodeEndsTheRun : Prop :=
  (∀ (op : Byte) (s : State),
      exec (.unknown op) s = .next { s with error := true, status := .errored .unknownOpcode }) ∧
    ∀ (cfg : Config) (s : State), s.status = .running → s.pc.toNat ≤ 255 → 16 ≤ (Memory.read s.rom s.pc.toNat).toNat →
      stepWith cfg s = .next { s with error := true, status := .errored .unknownOpcode }

/-- 40_cycle.md, the step: fetch, window, decode, then execute on the unchanged state. -/
def Obligations.StepRunsTheDecodedInstruction : Prop :=
  ∀ s : State, s.status = .running →
    (∀ i rest, decode (romBytesFrom s) = .ok (i, rest) → i.wellFormed = true ∧ step s = exec i s) ∧
    (∀ e, decode (romBytesFrom s) = .error e →
      step s = .next { s with error := true, status := .errored .illegalMemoryAccess })

/-- Rule R68. -/
def Obligations.StepExistsExactlyWhenRunning : Prop :=
  ∀ (cfg : Config) (s : State),
    (s.status = .running → ∃ t, stepWith cfg s = .next t) ∧
    (s.status ≠ .running → stepWith cfg s = .fault (.terminal s.status))

/-- Rule R69. -/
def Obligations.FetchPastTheEndIsIllegalMemoryAccess : Prop :=
  ∀ (cfg : Config) (s : State), s.status = .running → s.pc.toNat ≤ 256 →
    (fetchOpcode s = none ↔ s.pc.toNat = 256) ∧
    (s.pc.toNat = 256 → stepWith cfg s = .next { s with error := true, status := .errored .illegalMemoryAccess })

/-- Rule R70. -/
def Obligations.WindowPastTheEndIsIllegalMemoryAccess : Prop :=
  ∀ (cfg : Config) (s : State), s.status = .running → s.pc.toNat ≤ 255 →
    let op := Memory.read s.rom s.pc.toNat
    (256 < s.pc.toNat + 1 + windowLen cfg op →
      stepWith cfg s = .next { s with error := true, status := .errored .illegalMemoryAccess }) ∧
    (s.pc.toNat + 1 + windowLen cfg op ≤ 256 →
      ∃ w, memRead s.rom (s.pc.toNat + 1) (windowLen cfg op) = some w ∧
        stepWith cfg s = exec (decodeFields cfg op w) s) ∧
    (16 ≤ op.toNat → s.pc.toNat + 1 + windowLen cfg op ≤ 256)

/-- Rules R15 and R72. -/
def Obligations.InvalidRegisterFieldTakesRegisterError : Prop :=
  ∀ (cfg : Config) (s : State) (i : Instr), s.status = .running → fetch cfg s = .ok i →
    ((∃ r ∈ i.regs, 4 ≤ r.toNat) →
      stepWith cfg s = .next { s with error := true, status := .errored .registerError }) ∧
    ((∀ r ∈ i.regs, r.toNat < 4) → ∀ t, stepWith cfg s = .next t → t.status ≠ .errored .registerError)

/-- Rule R73. -/
def Obligations.FatalErrorChangesOnlyErrorAndStatus : Prop :=
  ∀ (cfg : Config) (s t : State) (k : FatalKind), s.status = .running → stepWith cfg s = .next t →
    t.status = .errored k →
    t = { s with error := true, status := .errored k } ∧ stepWith cfg t = .fault (.terminal (.errored k))

/-- Rule R100, and with it the priority of rule R102. -/
def Obligations.ErrorsAreRaisedExactlyWhereTheSpecSays : Prop :=
  ∀ (cfg : Config) (s t : State), s.status = .running → s.pc.toNat ≤ 256 → stepWith cfg s = .next t →
    (t.status = .errored .illegalMemoryAccess ↔
      s.pc.toNat = 256 ∨
      s.pc.toNat < 256 ∧ 256 < s.pc.toNat + 1 + windowLen cfg (Memory.read s.rom s.pc.toNat)) ∧
    (t.status = .errored .registerError ↔ ∃ i, fetch cfg s = .ok i ∧ ∃ r ∈ i.regs, 4 ≤ r.toNat) ∧
    (t.status = .errored .unknownOpcode ↔ s.pc.toNat < 256 ∧ 16 ≤ (Memory.read s.rom s.pc.toNat).toNat) ∧
    (s.error = false →
      (t.error = true ∧ t.status = .running ↔
        ∃ (r1 r2 r3 : Byte) (_ : r1.toNat < 4) (_ : r2.toNat < 4) (_ : r3.toNat < 4),
          fetch cfg s = .ok (.div r1 r2 r3) ∧ s.x[r2.toNat] = 0))

/-- 10_state.md, section 3: no value of pc above 256 is reachable. The canonical form is the model's (log entry 7),
the 9-bit pc the spec's decision D6 (log entry 6). -/
def Obligations.StepKeepsTheInvariant : Prop :=
  ∀ s t : State, s.Inv → step s = .next t → t.Inv

/-- 10_state.md, section 9; the canonical form is the model's (log entry 7). -/
def Obligations.ResetMeetsTheInvariant : Prop :=
  State.reset.Inv

/-- 70_reset_and_hazards.md, section 1; registers and flags by the spec's decisions D3 and D4 (log entries 3 and 4),
other lengths by D15 (log entry 7). -/
def Obligations.ConstructionGivesTheInitialState : Prop :=
  ∀ (img : List Byte) (v : Variant),
    (1 ≤ img.length ∧ img.length ≤ 256 →
      ∃ s, construct img v = some s ∧ s.Inv ∧ s.pc = 0 ∧ (∀ i : Fin 4, s.x[i] = 0) ∧ s.compare = false ∧
        s.error = false ∧ s.out = [] ∧ s.status = .running ∧ (∀ a, Memory.read s.ram a = 0) ∧
        (∀ (a : Nat) (h : a < img.length), Memory.read s.rom a = img[a]) ∧
        (∀ a, img.length ≤ a → Memory.read s.rom a = 0)) ∧
    (¬ (1 ≤ img.length ∧ img.length ≤ 256) → construct img v = none)

/-- Rule R34. -/
def Obligations.ReadIsWholeOrFails : Prop :=
  ∀ (m : Memory) (a n : Nat),
    (256 < a + n → memRead m a n = none) ∧
    (a + n ≤ 256 → ∃ w, memRead m a n = some w ∧ w.length = n ∧
      ∀ (k : Nat) (h : k < w.length), w[k] = Memory.read m (a + k))

/-- 20_memory.md, section 3, the write primitive. That the memory written to is and stays in canonical form is the model's
choice (log entry 7). -/
def Obligations.WriteIsAllOrNothing : Prop :=
  (∀ (m : Memory) (a : Nat) (v : List Byte),
    (256 < a + v.length → memWrite m a v = none) ∧
    (a + v.length ≤ 256 → Memory.wf m →
      ∃ m', memWrite m a v = some m' ∧ Memory.wf m' ∧
        (∀ (k : Nat) (h : k < v.length), Memory.read m' (a + k) = v[k]) ∧
        ∀ c, c < a ∨ a + v.length ≤ c → Memory.read m' c = Memory.read m c)) ∧
  ∀ (s s' : State) (a : Nat) (v : Byte), storeByte s a v = some s' → s'.rom = s.rom

/-- The model's choice of a canonical form (log entry 7) loses no distinction and adds none. -/
def Obligations.EqualReadsMeanEqualMemories : Prop :=
  ∀ m m' : Memory, Memory.wf m → Memory.wf m' → (∀ a, Memory.read m a = Memory.read m' a) → m = m'

/-- Rule R33. -/
def Obligations.RomIsFilledOnceAndNeverWritten : Prop :=
  (∀ (img : List Byte) (v : Variant) (s : State), construct img v = some s →
      (∀ (a : Nat) (h : a < img.length), Memory.read s.rom a = img[a]) ∧
      ∀ a, img.length ≤ a → Memory.read s.rom a = 0) ∧
    (∀ (cfg : Config) (s t : State), stepWith cfg s = .next t → t.rom = s.rom) ∧
    ∀ (n : Nat) (s : State), (runFuel n s).rom = s.rom

/-- Rule R36. -/
def Obligations.RamIsWrittenOnlyByStAndReadOnlyByLd : Prop :=
  (∀ (img : List Byte) (v : Variant) (s : State), construct img v = some s → ∀ a, Memory.read s.ram a = 0) ∧
    (∀ (cfg : Config) (s t : State), stepWith cfg s = .next t → t.ram ≠ s.ram →
      ∃ r1 r2, fetch cfg s = .ok (.st r1 r2)) ∧
    ∀ (cfg : Config) (s : State) (m : Memory), s.status = .running → (∀ r1 r2, fetch cfg s ≠ .ok (.ld r1 r2)) →
      ∃ t t', stepWith cfg s = .next t ∧ stepWith cfg { s with ram := m } = .next t' ∧ agreeButRam t t'

/-- Rule R48. -/
def Obligations.StoresNeverReachInstructionFetch : Prop :=
  ∀ (cfg : Config) (s t : State) (r1 r2 : Byte), exec (.st r1 r2) s = .next t →
    t.rom = s.rom ∧ ∀ (p : Pc) (m : Memory), fetch cfg { t with pc := p, ram := m } = fetch cfg { s with pc := p }

/-- 20_memory.md, section 8: memory is sequentially consistent in program order. -/
def Obligations.LoadAfterStoreReturnsTheStoredByte : Prop :=
  ∀ (r1 r2 b d : Byte) (h1 : r1.toNat < 4) (h2 : r2.toNat < 4) (hb : b.toNat < 4) (hd : d.toNat < 4) (s t : State),
    Memory.wf s.ram → exec (.st r1 r2) s = .next t →
    exec (.ld b d) t = .next { t with
      x := t.x.set d.toNat
        (if s.x[b.toNat] = s.x[r2.toNat] then s.x[r1.toNat] else Memory.read s.ram (effectiveAddress s.x[b.toNat])) hd
      pc := s.pc + 6 }

/-- Rule R26; the numeric codes are StatusCodesAreDistinct. -/
def Obligations.RunStatusIsOneWay : Prop :=
  (∀ (img : List Byte) (v : Variant) (s : State), construct img v = some s → s.status = .running) ∧
    (∀ (cfg : Config) (s t : State), stepWith cfg s = .next t → (t.status = .halted ↔ fetch cfg s = .ok .hlt)) ∧
    (∀ s : State, s.status ≠ .running → ∀ n, runFuel n s = s) ∧
    ∀ (cfg : Config) (s t : State) (r1 r2 r3 : Byte) (_ : r1.toNat < 4) (_ : r2.toNat < 4) (_ : r3.toNat < 4),
      stepWith cfg s = .next t → fetch cfg s = .ok (.div r1 r2 r3) → t.status = .running

/-- Rule R25; how the host renders a byte is outside the core (log entry 10). -/
def Obligations.OutputGrowsOnlyByPrnAndIsNeverReadBack : Prop :=
  (∀ (img : List Byte) (v : Variant) (s : State), construct img v = some s → s.out = []) ∧
    (∀ (cfg : Config) (s t : State), stepWith cfg s = .next t →
      t.out = s.out ∧ (∀ r1 : Byte, r1.toNat < 4 → fetch cfg s ≠ .ok (.prn r1)) ∨
      ∃ (r1 : Byte) (_ : r1.toNat < 4), fetch cfg s = .ok (.prn r1) ∧ t.out = s.out ++ [s.x[r1.toNat]]) ∧
    ∀ (cfg : Config) (s t : State) (o : List Byte), stepWith cfg s = .next t →
      ∃ t', stepWith cfg { s with out := o } = .next t' ∧ agreeButOut t t'

/-- 10_state.md, section 4, Compare flag: no instruction writes it as a side effect. -/
def Obligations.CompareChangesOnlyByCompareOrTakenJmpc : Prop :=
  ∀ (cfg : Config) (s t : State), stepWith cfg s = .next t → t.compare ≠ s.compare →
    (∃ r1 r2, fetch cfg s = .ok (.eq r1 r2)) ∨ (∃ r1 r2, fetch cfg s = .ok (.neq r1 r2)) ∨
    (∃ imm, fetch cfg s = .ok (.jmpc imm)) ∧ s.compare = true

/-- 10_state.md, section 4, Error flag: the driver sets it on every error outcome, RegisterError included (conflict C2,
log entry 16), a taken JMPE alone clears it, and a halt leaves it alone (conflict C5, log entry 9). -/
def Obligations.ErrorFlagChangesOnlyByErrorOrTakenJmpe : Prop :=
  ∀ (cfg : Config) (s t : State), stepWith cfg s = .next t →
    (∀ k, t.status = .errored k → t.error = true) ∧
    (∀ (r1 r2 r3 : Byte) (_ : r1.toNat < 4) (_ : r2.toNat < 4) (_ : r3.toNat < 4),
      fetch cfg s = .ok (.div r1 r2 r3) → s.x[r2.toNat] = 0 → t.error = true) ∧
    (t.status = .halted → t.error = s.error) ∧
    (t.error ≠ s.error →
      t.error = true ∧ (∃ k, t.status = .errored k) ∨
      t.error = true ∧ t.status = .running ∧
        (∃ (r1 r2 r3 : Byte) (_ : r1.toNat < 4) (_ : r2.toNat < 4) (_ : r3.toNat < 4),
          fetch cfg s = .ok (.div r1 r2 r3) ∧ s.x[r2.toNat] = 0) ∨
      t.error = false ∧ ∃ imm, fetch cfg s = .ok (.jmpe imm) ∧ t.pc = BitVec.ofNat 9 imm.toNat)

/-- 10_state.md, section 8: the registers written by each instruction. -/
def Obligations.RegistersOutsideTheDestinationsAreKept : Prop :=
  ∀ (i : Instr) (s t : State), exec i s = .next t →
    ∀ r : Fin 4, (∀ b ∈ destinations i, b.toNat ≠ r.val) → t.x[r] = s.x[r]

/-- 10_state.md, section 3, and 30_encoding.md, section 7 (both inferences the spec marks as derived). -/
def Obligations.ProgramCounterFallsThroughOrJumps : Prop :=
  ∀ (cfg : Config) (s t : State) (i : Instr), s.status = .running → fetch cfg s = .ok i → stepWith cfg s = .next t →
    (t.status = .running → t.pc.toNat = s.pc.toNat + i.length ∨ isJump i = true ∧ t.pc.toNat < 256) ∧
    (t.status ≠ .running → t.pc = s.pc) ∧
    (t.pc.toNat < s.pc.toNat → isJump i = true)

/-- 30_encoding.md, sections 2 and 4, for every OPCODE_MAP and FIELD_ORDER (the default is the spec's decisions D1 and
D2, log entries 1 and 2). -/
def Obligations.DecodeOfEncodeIsTheInstruction : Prop :=
  ∀ (cfg : Config) (i : Instr) (rest : List Byte), i.wellFormed = true →
    decodeWith cfg (encodeWith cfg i ++ rest) = .ok (i, rest)

/-- 30_encoding.md, sections 4 and 5: each field is a whole byte, used unchanged. -/
def Obligations.EncodeOfDecodeIsTheBytes : Prop :=
  ∀ (cfg : Config) (bytes rest : List Byte) (i : Instr), decodeWith cfg bytes = .ok (i, rest) →
    i.wellFormed = true ∧ encodeWith cfg i ++ rest = bytes

/-- 30_encoding.md, sections 1 and 4: decoding itself never fails, and the length depends on the opcode byte alone. -/
def Obligations.DecodingFailsOnlyOnMissingBytes : Prop :=
  ∀ (cfg : Config) (op : Byte) (rest : List Byte),
    (windowLen cfg op ≤ rest.length → ∃ i rest', decodeWith cfg (op :: rest) = .ok (i, rest') ∧
      i.length = 1 + windowLen cfg op ∧ rest.length = windowLen cfg op + rest'.length) ∧
    (rest.length < windowLen cfg op → decodeWith cfg (op :: rest) = .error .shortWindow)

/-- Rule R59. -/
def Obligations.UnknownOpcodesDecodeWithAnEmptyWindow : Prop :=
  ∀ (cfg : Config) (op : Byte) (rest : List Byte), 16 ≤ op.toNat →
    windowLen cfg op = 0 ∧ decodeWith cfg (op :: rest) = .ok (.unknown op, rest)

/-- 95_test_vectors.md, section 2, under the spec's decisions D1 and D2 (log entries 1 and 2). -/
def Obligations.SpecEncodingsDecode : Prop :=
  decode [0x00] = .ok (.nop, []) ∧ decode [0x01, 0x00, 0x01, 0x02] = .ok (.add 0 1 2, []) ∧
    decode [0x04, 0x00, 0x01, 0x09] = .ok (.div 0 1 9, []) ∧ decode [0x06, 0x05, 0x00] = .ok (.ldi 5 0, []) ∧
    decode [0x07, 0x03, 0x02] = .ok (.st 3 2, []) ∧ decode [0x0A, 0x00, 0x02] = .ok (.neq 0 2, []) ∧
    decode [0x0C, 0x0C] = .ok (.jmpc 0x0C, []) ∧ decode [0x0E, 0x04] = .ok (.prn 4, []) ∧
    decode [0x0F, 0xFF] = .ok (.hlt, [0xFF]) ∧ decode [0x10] = .ok (.unknown 0x10, [])

/-- 60_exceptions.md, section 3: the only recovery mechanism. That the DIV's destination register is among what does not
differ is the spec's decision D18 (log entry 8). -/
def Obligations.DivideByZeroIsSeenAndClearedByJmpe : Prop :=
  ∀ (r1 r2 r3 imm : Byte) (_ : r1.toNat < 4) (h2 : r2.toNat < 4) (_ : r3.toNat < 4) (s t : State),
    s.x[r2.toNat] = 0 → exec (.div r1 r2 r3) s = .next t →
    exec (.jmpe imm) t = .next { s with pc := BitVec.ofNat 9 imm.toNat, error := false }

/-- 70_reset_and_hazards.md, section 3: a compare is visible to the JMPC right after it, which consumes it. -/
def Obligations.CompareIsSeenAndConsumedByJmpc : Prop :=
  ∀ (r1 r2 imm : Byte) (h1 : r1.toNat < 4) (h2 : r2.toNat < 4) (s t u : State),
    (exec (.eq r1 r2) s = .next t → exec (.jmpc imm) t = .next u →
      u = (if s.x[r1.toNat] = s.x[r2.toNat] then { s with pc := BitVec.ofNat 9 imm.toNat, compare := false }
        else { s with pc := s.pc + 5, compare := false })) ∧
    (exec (.neq r1 r2) s = .next t → exec (.jmpc imm) t = .next u →
      u = (if s.x[r1.toNat] = s.x[r2.toNat] then { s with pc := s.pc + 5, compare := false }
        else { s with pc := BitVec.ofNat 9 imm.toNat, compare := false }))

/-- 40_cycle.md, section 4: a run is the sequence of steps from its first state, and it stops at the first terminal state;
the caller's fuel is the spec's decision D17 (log entry 12). -/
def Obligations.RunIsTheSequenceOfStepsToTheFirstTerminalState : Prop :=
  ∀ s : State,
    runFuel 0 s = s ∧
    (∀ n t, step s = .next t → runFuel (n + 1) s = runFuel n t) ∧
    (∀ n, (runFuel n s).status = .running → step (runFuel n s) = .next (runFuel (n + 1) s)) ∧
    (∀ n k, (runFuel n s).status ≠ .running → runFuel (n + k) s = runFuel n s)

/-- 40_cycle.md, section 4; pc in the dump by the spec's decision D19 (log entry 10). -/
def Obligations.FinalDumpIsTheWholeFinalState : Prop :=
  ∀ s : State,
    (finalDump s = none ↔ s.status = .running) ∧
    ∀ d st, finalDump s = some (d, st) →
      st = s.status ∧ d.pc = s.pc ∧ d.x = s.x ∧ d.compare = s.compare ∧ d.error = s.error ∧
      d.rom.length = 256 ∧ d.ram.length = 256 ∧
      (∀ (a : Nat) (h : a < d.rom.length), d.rom[a] = Memory.read s.rom a) ∧
      (∀ (a : Nat) (h : a < d.ram.length), d.ram[a] = Memory.read s.ram a)

/-- 60_exceptions.md, section 1, status and event codes: the spec's decision D8 (log entry 10). -/
def Obligations.StatusCodesAreDistinct : Prop :=
  statusCode .running = 0 ∧ statusCode .halted = 1 ∧ statusCode (.errored .illegalMemoryAccess) = 2 ∧
    statusCode (.errored .registerError) = 3 ∧ statusCode (.errored .unknownOpcode) = 4 ∧
    (∀ st st' : Status, statusCode st = statusCode st' → st = st') ∧
    ∀ st : Status, statusCode st ≠ eventCode .divideByZero ∧ statusCode st ≠ invalidProgramLengthCode

/-- 30_encoding.md, section 6: the spec's decision D11 (log entry 13). -/
def Obligations.AssemblingInstructionsGivesTheirEncodings : Prop :=
  ∀ (cfg : Config) (program : List Instr),
    assembleWith cfg (program.map fun i => ⟨none, some (sourceItem i)⟩) = some (program.map (encodeWith cfg)).flatten
end

