-- ==== Sys2Proof/Laws/Decode.lean ====
section
/-! SUPPORT. What the parts of the decoder and the encoder do, for any encoding parameters. -/

namespace Sys2Proof

/-- A defined operation's opcode byte is below 16. -/
theorem opcodeByte_toNat (cfg : Config) (o : Opcode) : (opcodeByte cfg o).toNat = (cfg.opcodeMap o).val := by
  have := (cfg.opcodeMap o).isLt
  simp only [opcodeByte, BitVec.toNat_ofNat]
  omega

/-- The opcode byte of an operation selects that operation. -/
theorem opcodeOf_opcodeByte (cfg : Config) (o : Opcode) : opcodeOf cfg (opcodeByte cfg o) = some o := by
  have h : (opcodeByte cfg o).toNat < 16 := by
    rw [opcodeByte_toNat]
    exact (cfg.opcodeMap o).isLt
  rw [opcodeOf, dif_pos h, Option.some.injEq, Equiv.symm_apply_eq, Fin.ext_iff]
  exact opcodeByte_toNat cfg o

/-- The byte that selects an operation is its opcode byte. -/
theorem opcodeByte_of_opcodeOf {cfg : Config} {op : Byte} {o : Opcode} (h : opcodeOf cfg op = some o) :
    opcodeByte cfg o = op := by
  rw [opcodeOf] at h
  split at h
  · next hlt =>
    rw [Option.some.injEq, Equiv.symm_apply_eq] at h
    apply BitVec.eq_of_toNat_eq
    rw [opcodeByte_toNat, ← h]
  · cases h

/-- A byte selects no operation exactly when it is 0x10 to 0xFF (rule R55). -/
theorem opcodeOf_eq_none {cfg : Config} {op : Byte} : opcodeOf cfg op = none ↔ 16 ≤ op.toNat := by
  rw [opcodeOf]
  split
  · simp only [reduceCtorEq, false_iff]
    omega
  · simp only [true_iff]
    omega

/-- The window length of a defined operation's opcode byte is that of its shape (rule R54). -/
@[simp] theorem windowLen_opcodeByte (cfg : Config) (o : Opcode) :
    windowLen cfg (opcodeByte cfg o) = o.shape.windowLen := by
  rw [windowLen, opcodeOf_opcodeByte]

/-- No window is longer than 3 bytes (rule R6). -/
theorem windowLen_le (cfg : Config) (op : Byte) : windowLen cfg op ≤ 3 := by
  rw [windowLen]
  split
  · next o _ => cases o <;> decide
  · omega

@[simp] theorem rrWindow_length (cfg : Config) (r1 r2 : Byte) : (rrWindow cfg r1 r2).length = 2 := rfl

@[simp] theorem rrrWindow_length (cfg : Config) (r1 r2 r3 : Byte) : (rrrWindow cfg r1 r2 r3).length = 3 := rfl

/-- `decodeWith` answers an instruction exactly when the window is complete. -/
theorem decodeWith_ok {cfg : Config} {op : Byte} {rest rest' : List Byte} {i : Instr}
    (h : decodeWith cfg (op :: rest) = .ok (i, rest')) :
    windowLen cfg op ≤ rest.length ∧ i = decodeFields cfg op (rest.take (windowLen cfg op)) ∧
      rest' = rest.drop (windowLen cfg op) := by
  rw [decodeWith] at h
  split at h
  · have h' := Prod.mk.inj (Except.ok.inj h)
    exact ⟨‹_›, h'.1.symm, h'.2.symm⟩
  · cases h

end Sys2Proof
end

