-- ==== Sys2Proof/Laws/Memory.lean ====
section
/-! SUPPORT. What the memory operations do: read after write, and the canonical form is kept by every one of them. -/

namespace Sys2Proof.Machine

@[simp] theorem Memory.read_nil (a : Nat) : Memory.read [] a = Memory.unlisted := rfl

/-- An address below every listed one is unlisted. -/
theorem Memory.read_of_below {m : Memory} {a : Nat} (h : ∀ c ∈ m, a < c.1) : Memory.read m a = Memory.unlisted := by
  induction m with
  | nil => rfl
  | cons c m ih =>
    have hc : ¬ c.1 = a := by have := h c (by simp); omega
    simpa [Memory.read, hc] using ih fun d hd => h d (by simp [hd])

/-- Every byte a write puts in the list stands at the written address or was there before. -/
theorem Memory.mem_write {m : Memory} {a : Nat} {v : Byte} {c : Host.Cell} (h : c ∈ Memory.write m a v) :
    (c = (a, v) ∧ v ≠ Memory.unlisted) ∨ c ∈ m := by
  induction m with
  | nil =>
    rw [Memory.write] at h
    split at h <;> simp_all
  | cons d m ih =>
    obtain ⟨k, b⟩ := d
    rw [Memory.write] at h
    split at h
    · split at h <;> simp_all
    · split at h
      · split at h
        · exact .inr (List.mem_cons_of_mem _ h)
        · next hv =>
          rcases List.mem_cons.mp h with h | h
          · exact .inl ⟨h, hv⟩
          · exact .inr (List.mem_cons_of_mem _ h)
      · rcases List.mem_cons.mp h with h | h
        · exact .inr (by simp [h])
        · exact (ih h).imp_right fun h => by simp [h]

/-- A write inside the space keeps the canonical form. -/
theorem Memory.wf_write {m : Memory} {a : Nat} {v : Byte} (hm : Memory.wf m) (ha : a < 256) :
    Memory.wf (Memory.write m a v) := by
  refine ⟨?_, fun c hc => ?_⟩
  · obtain ⟨hs, -⟩ := hm
    induction m with
    | nil =>
      rw [Memory.write]
      split <;> simp
    | cons d m ih =>
      obtain ⟨k, b⟩ := d
      obtain ⟨hk, hs'⟩ := List.pairwise_cons.mp hs
      rw [Memory.write]
      split
      · next hlt =>
        split
        · exact hs
        · refine List.pairwise_cons.mpr ⟨fun c hc => ?_, hs⟩
          rcases List.mem_cons.mp hc with rfl | hc
          · exact hlt
          · exact hlt.trans (hk c hc)
      · next hlt =>
        split
        · next heq =>
          subst heq
          split
          · exact hs'
          · exact List.pairwise_cons.mpr ⟨hk, hs'⟩
        · next hne =>
          refine List.pairwise_cons.mpr ⟨fun c hc => ?_, ih hs'⟩
          rcases Memory.mem_write hc with ⟨rfl, -⟩ | hc
          · show k < a
            omega
          · exact hk c hc
  · rcases Memory.mem_write hc with ⟨rfl, hv⟩ | hc
    · exact ⟨ha, hv⟩
    · exact hm.2 c hc

/-- Reading the written address gives the byte written. -/
theorem Memory.read_write_same {m : Memory} (hm : Memory.wf m) (a : Nat) (v : Byte) :
    Memory.read (Memory.write m a v) a = v := by
  obtain ⟨hs, -⟩ := hm
  induction m with
  | nil =>
    rw [Memory.write]
    split <;> simp_all [Memory.read]
  | cons d m ih =>
    obtain ⟨k, b⟩ := d
    obtain ⟨hk, hs'⟩ := List.pairwise_cons.mp hs
    rw [Memory.write]
    split
    · next hlt =>
      split
      · next hv =>
        rw [hv]
        refine Memory.read_of_below fun c hc => ?_
        rcases List.mem_cons.mp hc with rfl | hc
        · exact hlt
        · exact hlt.trans (hk c hc)
      · simp [Memory.read]
    · split
      · next heq =>
        subst heq
        split
        · next hv =>
          rw [hv]
          exact Memory.read_of_below hk
        · simp [Memory.read]
      · next hne =>
        have hka : ¬ k = a := fun h => hne h.symm
        simpa [Memory.read, hka] using ih hs'

/-- A write leaves every other address as it was. -/
theorem Memory.read_write_other (m : Memory) {a c : Nat} (v : Byte) (h : c ≠ a) :
    Memory.read (Memory.write m a v) c = Memory.read m c := by
  have ha : ¬ a = c := fun e => h e.symm
  induction m with
  | nil =>
    rw [Memory.write]
    split <;> simp [Memory.read, ha]
  | cons d m ih =>
    obtain ⟨k, b⟩ := d
    rw [Memory.write]
    split
    · split <;> simp [Memory.read, ha]
    · split
      · next heq =>
        subst heq
        split <;> simp [Memory.read, ha]
      · simp [Memory.read, ih]

/-- Writing bytes inside the space keeps the canonical form. -/
theorem Memory.wf_writeBytes {m : Memory} {a : Nat} {vs : List Byte} (hm : Memory.wf m)
    (h : a + vs.length ≤ 256) : Memory.wf (Memory.writeBytes m a vs) := by
  induction vs generalizing m a with
  | nil => exact hm
  | cons v vs ih =>
    rw [List.length_cons] at h
    exact ih (Memory.wf_write hm (by omega)) (by omega)

/-- The memory a successful `memWrite` answers: the bytes put one after another, inside the space. -/
theorem memWrite_some {m m' : Memory} {a : Nat} {vs : List Byte} (h : memWrite m a vs = some m') :
    a + vs.length ≤ 256 ∧ m' = Memory.writeBytes m a vs := by
  rw [memWrite] at h
  split at h
  · exact ⟨‹_›, (Option.some.inj h).symm⟩
  · cases h

/-- A successful `memWrite` keeps the canonical form. -/
theorem memWrite_wf {m m' : Memory} {a : Nat} {vs : List Byte} (hm : Memory.wf m)
    (h : memWrite m a vs = some m') : Memory.wf m' := by
  obtain ⟨hle, rfl⟩ := memWrite_some h
  exact Memory.wf_writeBytes hm hle

/-- The bytes a successful `memRead` answers. -/
theorem memRead_some {m : Memory} {a n : Nat} {w : List Byte} (h : memRead m a n = some w) :
    a + n ≤ 256 ∧ w = (List.range n).map fun k => Memory.read m (a + k) := by
  rw [memRead] at h
  split at h
  · exact ⟨‹_›, (Option.some.inj h).symm⟩
  · cases h

/-- The memory after reset is in canonical form, in both spaces. -/
theorem State.reset_wf : Memory.wf State.reset.rom ∧ Memory.wf State.reset.ram := by decide

/-- A constructed core's program memory is in canonical form. -/
theorem construct_rom_wf {img : List Byte} {v : Variant} {s : State} (h : construct img v = some s) :
    Memory.wf s.rom := by
  rw [construct] at h
  split at h
  · next hlen =>
    cases h
    exact Memory.wf_writeBytes State.reset_wf.1 (by simpa using hlen.2)
  · cases h

/-- Placing bytes where the fetch reads keeps the canonical form. -/
theorem placeInRom_wf {m : Memory} {a : Nat} {vs : List Byte} (hm : Memory.wf m) (ha : a ≤ 256) :
    Memory.wf (placeInRom m a vs) :=
  Memory.wf_writeBytes hm (by rw [List.length_take]; simp only [spaceSize]; omega)

end Sys2Proof.Machine
end

