-- ==== Sys2Proof/Laws/State.lean ====
section
/-! SUPPORT. One lemma per field per update of the state, so that no later proof unfolds a record update. -/

namespace Sys2Proof.Machine

variable (s : State)

@[simp] theorem State.setReg_pc (i : RegIndex) (v : Byte) : (s.setReg i v).pc = s.pc := rfl
@[simp] theorem State.setReg_x (i : RegIndex) (v : Byte) : (s.setReg i v).x = s.x.set i v := rfl
@[simp] theorem State.setReg_compare (i : RegIndex) (v : Byte) : (s.setReg i v).compare = s.compare := rfl
@[simp] theorem State.setReg_error (i : RegIndex) (v : Byte) : (s.setReg i v).error = s.error := rfl
@[simp] theorem State.setReg_rom (i : RegIndex) (v : Byte) : (s.setReg i v).rom = s.rom := rfl
@[simp] theorem State.setReg_ram (i : RegIndex) (v : Byte) : (s.setReg i v).ram = s.ram := rfl
@[simp] theorem State.setReg_out (i : RegIndex) (v : Byte) : (s.setReg i v).out = s.out := rfl
@[simp] theorem State.setReg_status (i : RegIndex) (v : Byte) : (s.setReg i v).status = s.status := rfl

@[simp] theorem State.setPc_pc (p : Pc) : (s.setPc p).pc = p := rfl
@[simp] theorem State.setPc_x (p : Pc) : (s.setPc p).x = s.x := rfl
@[simp] theorem State.setPc_compare (p : Pc) : (s.setPc p).compare = s.compare := rfl
@[simp] theorem State.setPc_error (p : Pc) : (s.setPc p).error = s.error := rfl
@[simp] theorem State.setPc_rom (p : Pc) : (s.setPc p).rom = s.rom := rfl
@[simp] theorem State.setPc_ram (p : Pc) : (s.setPc p).ram = s.ram := rfl
@[simp] theorem State.setPc_out (p : Pc) : (s.setPc p).out = s.out := rfl
@[simp] theorem State.setPc_status (p : Pc) : (s.setPc p).status = s.status := rfl

@[simp] theorem State.advance_pc (n : Fin 5) : (s.advance n).pc = s.pc + BitVec.ofNat 9 n.val := rfl
@[simp] theorem State.advance_x (n : Fin 5) : (s.advance n).x = s.x := rfl
@[simp] theorem State.advance_compare (n : Fin 5) : (s.advance n).compare = s.compare := rfl
@[simp] theorem State.advance_error (n : Fin 5) : (s.advance n).error = s.error := rfl
@[simp] theorem State.advance_rom (n : Fin 5) : (s.advance n).rom = s.rom := rfl
@[simp] theorem State.advance_ram (n : Fin 5) : (s.advance n).ram = s.ram := rfl
@[simp] theorem State.advance_out (n : Fin 5) : (s.advance n).out = s.out := rfl
@[simp] theorem State.advance_status (n : Fin 5) : (s.advance n).status = s.status := rfl

@[simp] theorem State.setCompare_pc (b : Bool) : (s.setCompare b).pc = s.pc := rfl
@[simp] theorem State.setCompare_x (b : Bool) : (s.setCompare b).x = s.x := rfl
@[simp] theorem State.setCompare_compare (b : Bool) : (s.setCompare b).compare = b := rfl
@[simp] theorem State.setCompare_error (b : Bool) : (s.setCompare b).error = s.error := rfl
@[simp] theorem State.setCompare_rom (b : Bool) : (s.setCompare b).rom = s.rom := rfl
@[simp] theorem State.setCompare_ram (b : Bool) : (s.setCompare b).ram = s.ram := rfl
@[simp] theorem State.setCompare_out (b : Bool) : (s.setCompare b).out = s.out := rfl
@[simp] theorem State.setCompare_status (b : Bool) : (s.setCompare b).status = s.status := rfl

@[simp] theorem State.setError_pc (b : Bool) : (s.setError b).pc = s.pc := rfl
@[simp] theorem State.setError_x (b : Bool) : (s.setError b).x = s.x := rfl
@[simp] theorem State.setError_compare (b : Bool) : (s.setError b).compare = s.compare := rfl
@[simp] theorem State.setError_error (b : Bool) : (s.setError b).error = b := rfl
@[simp] theorem State.setError_rom (b : Bool) : (s.setError b).rom = s.rom := rfl
@[simp] theorem State.setError_ram (b : Bool) : (s.setError b).ram = s.ram := rfl
@[simp] theorem State.setError_out (b : Bool) : (s.setError b).out = s.out := rfl
@[simp] theorem State.setError_status (b : Bool) : (s.setError b).status = s.status := rfl

@[simp] theorem State.setRam_pc (m : Memory) : (s.setRam m).pc = s.pc := rfl
@[simp] theorem State.setRam_x (m : Memory) : (s.setRam m).x = s.x := rfl
@[simp] theorem State.setRam_compare (m : Memory) : (s.setRam m).compare = s.compare := rfl
@[simp] theorem State.setRam_error (m : Memory) : (s.setRam m).error = s.error := rfl
@[simp] theorem State.setRam_rom (m : Memory) : (s.setRam m).rom = s.rom := rfl
@[simp] theorem State.setRam_ram (m : Memory) : (s.setRam m).ram = m := rfl
@[simp] theorem State.setRam_out (m : Memory) : (s.setRam m).out = s.out := rfl
@[simp] theorem State.setRam_status (m : Memory) : (s.setRam m).status = s.status := rfl

@[simp] theorem State.emit_pc (v : Byte) : (s.emit v).pc = s.pc := rfl
@[simp] theorem State.emit_x (v : Byte) : (s.emit v).x = s.x := rfl
@[simp] theorem State.emit_compare (v : Byte) : (s.emit v).compare = s.compare := rfl
@[simp] theorem State.emit_error (v : Byte) : (s.emit v).error = s.error := rfl
@[simp] theorem State.emit_rom (v : Byte) : (s.emit v).rom = s.rom := rfl
@[simp] theorem State.emit_ram (v : Byte) : (s.emit v).ram = s.ram := rfl
@[simp] theorem State.emit_out (v : Byte) : (s.emit v).out = s.out ++ [v] := rfl
@[simp] theorem State.emit_status (v : Byte) : (s.emit v).status = s.status := rfl

@[simp] theorem State.setStatus_pc (st : Status) : (s.setStatus st).pc = s.pc := rfl
@[simp] theorem State.setStatus_x (st : Status) : (s.setStatus st).x = s.x := rfl
@[simp] theorem State.setStatus_compare (st : Status) : (s.setStatus st).compare = s.compare := rfl
@[simp] theorem State.setStatus_error (st : Status) : (s.setStatus st).error = s.error := rfl
@[simp] theorem State.setStatus_rom (st : Status) : (s.setStatus st).rom = s.rom := rfl
@[simp] theorem State.setStatus_ram (st : Status) : (s.setStatus st).ram = s.ram := rfl
@[simp] theorem State.setStatus_out (st : Status) : (s.setStatus st).out = s.out := rfl
@[simp] theorem State.setStatus_status (st : Status) : (s.setStatus st).status = st := rfl

@[simp] theorem fatal_pc (k : FatalKind) : (fatal k s).pc = s.pc := rfl
@[simp] theorem fatal_x (k : FatalKind) : (fatal k s).x = s.x := rfl
@[simp] theorem fatal_compare (k : FatalKind) : (fatal k s).compare = s.compare := rfl
@[simp] theorem fatal_error (k : FatalKind) : (fatal k s).error = true := rfl
@[simp] theorem fatal_rom (k : FatalKind) : (fatal k s).rom = s.rom := rfl
@[simp] theorem fatal_ram (k : FatalKind) : (fatal k s).ram = s.ram := rfl
@[simp] theorem fatal_out (k : FatalKind) : (fatal k s).out = s.out := rfl
@[simp] theorem fatal_status (k : FatalKind) : (fatal k s).status = .errored k := rfl

/-- A register read after a write to it gives the value written. -/
@[simp] theorem State.reg_setReg_same (i : RegIndex) (v : Byte) : (s.setReg i v).reg i = v := by
  simp [State.reg]

/-- A register write leaves every other register as it was. -/
theorem State.reg_setReg_other {i j : RegIndex} (v : Byte) (h : j ≠ i) : (s.setReg i v).reg j = s.reg j := by
  simp only [State.reg, State.setReg_x, Fin.getElem_fin]
  exact Vector.getElem_set_ne i.isLt j.isLt fun hij => h (Fin.ext hij.symm)

end Sys2Proof.Machine
end

