-- ==== Sys2Proof/Laws/Ops.lean ====
section
/-! SUPPORT. What each shared operation can do, said once: register validation, data access, outcome handling, fetch. -/

namespace Sys2Proof.Machine

/-! ### Outcome handling (rule R74) -/

@[simp] theorem settle_cont (s : State) (n : Fin 5) : settle ⟨s, n, .cont⟩ = s.advance n := rfl

@[simp] theorem settle_halt (s : State) (n : Fin 5) : settle ⟨s, n, .halt⟩ = s.setStatus .halted := rfl

@[simp] theorem settle_divideByZero (s : State) (n : Fin 5) :
    settle ⟨s, n, .fail .divideByZero⟩ = (s.setError true).advance n := rfl

@[simp] theorem settle_fatal (s : State) (n : Fin 5) (k : FatalKind) :
    settle ⟨s, n, .fail (.fatal k)⟩ = fatal k s := rfl

/-! ### Register validation (rule R72) -/

theorem reg?_of_lt {r : Byte} (h : r.toNat < 4) : reg? r = some ⟨r.toNat, h⟩ := dif_pos h

theorem reg?_of_ge {r : Byte} (h : 4 ≤ r.toNat) : reg? r = none := dif_neg (Nat.not_lt.mpr h)

/-- A register field is valid exactly when it is below 4, and then it selects the register of that number. -/
theorem reg?_eq_some {r : Byte} {i : RegIndex} : reg? r = some i ↔ r.toNat = i.val := by
  by_cases h : r.toNat < 4
  · rw [reg?_of_lt h, Option.some.injEq, Fin.ext_iff]
  · rw [reg?_of_ge (Nat.not_lt.mp h)]
    refine ⟨(nomatch ·), fun h' => absurd ?_ h⟩
    rw [h']
    exact i.isLt

/-- One validated field: the executor ran, or the register error was taken. -/
theorem dispatch1_cases (r1 : Byte) (s : State) (run : RegIndex → Executed) :
    (∃ h1 : r1.toNat < 4, dispatch1 r1 s run = .next (settle (run ⟨r1.toNat, h1⟩))) ∨
    (4 ≤ r1.toNat ∧ dispatch1 r1 s run = .next (fatal .registerError s)) := by
  by_cases h1 : r1.toNat < 4
  · exact .inl ⟨h1, by rw [dispatch1, reg?_of_lt h1]⟩
  · exact .inr ⟨Nat.not_lt.mp h1, by rw [dispatch1, reg?_of_ge (Nat.not_lt.mp h1)]⟩

/-- Two validated fields: the executor ran, or the register error was taken. -/
theorem dispatch2_cases (r1 r2 : Byte) (s : State) (run : RegIndex → RegIndex → Executed) :
    (∃ (h1 : r1.toNat < 4) (h2 : r2.toNat < 4),
      dispatch2 r1 r2 s run = .next (settle (run ⟨r1.toNat, h1⟩ ⟨r2.toNat, h2⟩))) ∨
    ((4 ≤ r1.toNat ∨ 4 ≤ r2.toNat) ∧ dispatch2 r1 r2 s run = .next (fatal .registerError s)) := by
  by_cases h1 : r1.toNat < 4
  · by_cases h2 : r2.toNat < 4
    · exact .inl ⟨h1, h2, by rw [dispatch2, reg?_of_lt h1, reg?_of_lt h2]⟩
    · exact .inr ⟨.inr (Nat.not_lt.mp h2), by
        rw [dispatch2, reg?_of_ge (Nat.not_lt.mp h2)]; cases reg? r1 <;> rfl⟩
  · exact .inr ⟨.inl (Nat.not_lt.mp h1), by rw [dispatch2, reg?_of_ge (Nat.not_lt.mp h1)]⟩

/-- Three validated fields: the executor ran, or the register error was taken. -/
theorem dispatch3_cases (r1 r2 r3 : Byte) (s : State) (run : RegIndex → RegIndex → RegIndex → Executed) :
    (∃ (h1 : r1.toNat < 4) (h2 : r2.toNat < 4) (h3 : r3.toNat < 4),
      dispatch3 r1 r2 r3 s run = .next (settle (run ⟨r1.toNat, h1⟩ ⟨r2.toNat, h2⟩ ⟨r3.toNat, h3⟩))) ∨
    ((4 ≤ r1.toNat ∨ 4 ≤ r2.toNat ∨ 4 ≤ r3.toNat) ∧
      dispatch3 r1 r2 r3 s run = .next (fatal .registerError s)) := by
  by_cases h1 : r1.toNat < 4
  · by_cases h2 : r2.toNat < 4
    · by_cases h3 : r3.toNat < 4
      · exact .inl ⟨h1, h2, h3, by rw [dispatch3, reg?_of_lt h1, reg?_of_lt h2, reg?_of_lt h3]⟩
      · exact .inr ⟨.inr (.inr (Nat.not_lt.mp h3)), by
          rw [dispatch3, reg?_of_ge (Nat.not_lt.mp h3)]; cases reg? r1 <;> cases reg? r2 <;> rfl⟩
    · exact .inr ⟨.inr (.inl (Nat.not_lt.mp h2)), by
        rw [dispatch3, reg?_of_ge (Nat.not_lt.mp h2)]; cases reg? r1 <;> rfl⟩
  · exact .inr ⟨.inl (Nat.not_lt.mp h1), by rw [dispatch3, reg?_of_ge (Nat.not_lt.mp h1)]⟩

/-! ### Data access (rules R37, R39) -/

/-- Reading data memory at a byte address cannot fail. -/
theorem loadByte_byte (s : State) (v : Byte) :
    loadByte s (effectiveAddress v) = some (Memory.read s.ram v.toNat) := by
  have h : v.toNat + 1 ≤ 256 := by have := v.isLt; omega
  rw [loadByte, effectiveAddress, memRead, if_pos h]
  rfl

/-- Writing data memory at a byte address cannot fail. -/
theorem storeByte_byte (s : State) (a v : Byte) :
    storeByte s (effectiveAddress a) v = some (s.setRam (Memory.write s.ram a.toNat v)) := by
  have h : a.toNat + [v].length ≤ 256 := by
    have := a.isLt
    simp only [List.length_singleton]
    omega
  rw [storeByte, effectiveAddress, memWrite, if_pos h]
  rfl

/-- What the executor of LD answers. -/
theorem load_eq (s : State) (a d : RegIndex) :
    load s a d = ⟨s.setReg d (Memory.read s.ram (s.reg a).toNat), 3, .cont⟩ := by
  rw [load, loadByte_byte]

/-- What the executor of ST answers. -/
theorem store_eq (s : State) (v a : RegIndex) :
    store s v a = ⟨s.setRam (Memory.write s.ram (s.reg a).toNat (s.reg v)), 3, .cont⟩ := by
  rw [store, storeByte_byte]

/-- What the executor of DIV answers. -/
theorem divide_cases (s : State) (a b d : RegIndex) :
    (s.reg b = 0 ∧ divide s a b d = ⟨s, 4, .fail .divideByZero⟩) ∨
    (s.reg b ≠ 0 ∧ divide s a b d = ⟨s.setReg d (aluDiv (s.reg a) (s.reg b)), 4, .cont⟩) := by
  by_cases h : s.reg b = 0
  · exact .inl ⟨h, if_pos h⟩
  · exact .inr ⟨h, if_neg h⟩

/-- What the executor of a conditional jump answers. -/
theorem jumpIf_cases (flag : Bool) (clear : State → State) (imm : Byte) (s : State) :
    (flag = true ∧ jumpIf flag clear imm s = ⟨clear (s.setPc (jumpTarget imm)), 0, .cont⟩) ∨
    (flag = false ∧ jumpIf flag clear imm s = ⟨s, 2, .cont⟩) := by
  cases flag
  · exact .inr ⟨rfl, rfl⟩
  · exact .inl ⟨rfl, rfl⟩

/-! ### Fetch (rules R69, R70) -/

/-- The opcode byte is read exactly when the program counter is inside program memory. -/
theorem fetchOpcode_eq (s : State) :
    fetchOpcode s = if s.pc.toNat < 256 then some (Memory.read s.rom s.pc.toNat) else none := by
  by_cases h : s.pc.toNat < 256
  · have h' : s.pc.toNat + 1 ≤ 256 := h
    rw [fetchOpcode, memRead, if_pos h', if_pos h]
    rfl
  · have h' : ¬ s.pc.toNat + 1 ≤ 256 := h
    rw [fetchOpcode, memRead, if_neg h', if_neg h]
    rfl

/-- A RUNNING state's step executes the fetched instruction or takes the fatal path of the fetch's failure. -/
theorem stepWith_running {cfg : Config} {s : State} (h : s.status = .running) :
    (∃ i, fetch cfg s = .ok i ∧ stepWith cfg s = exec i s) ∨
    (fetch cfg s = .error .illegalMemoryAccess ∧ stepWith cfg s = .next (fatal .illegalMemoryAccess s)) := by
  cases hf : fetch cfg s with
  | ok i => exact .inl ⟨i, rfl, by simp only [stepWith, h, hf]⟩
  | error k =>
    have hk : k = .illegalMemoryAccess := by
      rw [fetch] at hf
      split at hf
      · exact (Except.error.inj hf).symm
      · split at hf
        · exact (Except.error.inj hf).symm
        · cases hf
    subst hk
    exact .inr ⟨rfl, by simp only [stepWith, h, hf]⟩

end Sys2Proof.Machine
end

