-- ==== Sys2Proof/Laws/PerInstr.lean ====
section
/-! SUPPORT. The family EncodedLength: an instruction's encoding has the length rule R52 gives it. -/

namespace Sys2Proof.Laws

/-- The encoding of an instruction is as long as rule R52 says. -/
def EncodedLength.Statement (i : Instr) : Prop := (encode i).length = i.length

theorem EncodedLength.nop : EncodedLength.Statement .nop := rfl

theorem EncodedLength.add (r1 r2 r3 : Byte) : EncodedLength.Statement (.add r1 r2 r3) := rfl

theorem EncodedLength.sub (r1 r2 r3 : Byte) : EncodedLength.Statement (.sub r1 r2 r3) := rfl

theorem EncodedLength.mul (r1 r2 r3 : Byte) : EncodedLength.Statement (.mul r1 r2 r3) := rfl

theorem EncodedLength.div (r1 r2 r3 : Byte) : EncodedLength.Statement (.div r1 r2 r3) := rfl

theorem EncodedLength.ld (r1 r2 : Byte) : EncodedLength.Statement (.ld r1 r2) := rfl

theorem EncodedLength.ldi (imm r1 : Byte) : EncodedLength.Statement (.ldi imm r1) := rfl

theorem EncodedLength.st (r1 r2 : Byte) : EncodedLength.Statement (.st r1 r2) := rfl

theorem EncodedLength.swp (r1 r2 : Byte) : EncodedLength.Statement (.swp r1 r2) := rfl

theorem EncodedLength.eq (r1 r2 : Byte) : EncodedLength.Statement (.eq r1 r2) := rfl

theorem EncodedLength.neq (r1 r2 : Byte) : EncodedLength.Statement (.neq r1 r2) := rfl

theorem EncodedLength.jmp (imm : Byte) : EncodedLength.Statement (.jmp imm) := rfl

theorem EncodedLength.jmpc (imm : Byte) : EncodedLength.Statement (.jmpc imm) := rfl

theorem EncodedLength.jmpe (imm : Byte) : EncodedLength.Statement (.jmpe imm) := rfl

theorem EncodedLength.prn (r1 : Byte) : EncodedLength.Statement (.prn r1) := rfl

theorem EncodedLength.hlt : EncodedLength.Statement .hlt := rfl

theorem EncodedLength.unknown (op : Byte) : EncodedLength.Statement (.unknown op) := rfl

end Sys2Proof.Laws
end

