-- ==== Sys2Proof/Tests/Slice0.lean ====
section
/-! SUPPORT. The model's own tests: expected results are the vectors of spec/95_test_vectors.md or hand calculation from
the rules. After them, for every statement that has hypotheses, a witness that something meets them. -/

namespace Sys2Proof.Tests

open Sys2Proof Sys2Proof.Machine

/-- A RUNNING state with the given registers and bytes placed at the program counter. -/
def start (x y z w : Byte) (pc : Pc) (bytes : List Byte) : State :=
  { State.reset with x := #v[x, y, z, w], pc := pc, rom := placeInRom [] pc.toNat bytes }

/-- The next state of an outcome, if it has one. -/
def nextOf (r : Host.Outcome State Fault Refusal) : Option State :=
  match r with
  | .next t => some t
  | .fault _ => none
  | .refused _ => none

/-- What one step makes of some part of the state. -/
def after {α : Type} (s : State) (f : State → α) : Option α :=
  (nextOf (step s)).map f

/-! ### Well-formedness (rules R55, R59) -/

theorem test_unknown_below_16_is_ill_formed : (Instr.unknown 0x0F).wellFormed = false := by decide

theorem test_unknown_16_is_well_formed : (Instr.unknown 0x10).wellFormed = true := by decide

/-! ### Decoding and encoding: bytes written out from the tables of 30_encoding.md -/

theorem test_word_nop : decode [0x00] = .ok (.nop, []) ∧ encode (.nop) = [0x00] := ⟨rfl, rfl⟩

theorem test_word_add :
    decode [0x01, 0x00, 0x01, 0x02] = .ok (.add 0 1 2, []) ∧
      encode (.add 0 1 2) = [0x01, 0x00, 0x01, 0x02] := ⟨rfl, rfl⟩

theorem test_word_sub :
    decode [0x02, 0x03, 0x02, 0x01] = .ok (.sub 3 2 1, []) ∧
      encode (.sub 3 2 1) = [0x02, 0x03, 0x02, 0x01] := ⟨rfl, rfl⟩

theorem test_word_mul :
    decode [0x03, 0xC8, 0x00, 0x01] = .ok (.mul 200 0 1, []) ∧
      encode (.mul 200 0 1) = [0x03, 0xC8, 0x00, 0x01] := ⟨rfl, rfl⟩

theorem test_word_div :
    decode [0x04, 0x00, 0x01, 0x09] = .ok (.div 0 1 9, []) ∧
      encode (.div 0 1 9) = [0x04, 0x00, 0x01, 0x09] := ⟨rfl, rfl⟩

theorem test_word_ld :
    decode [0x05, 0x02, 0x03] = .ok (.ld 2 3, []) ∧ encode (.ld 2 3) = [0x05, 0x02, 0x03] := ⟨rfl, rfl⟩

theorem test_word_ldi :
    decode [0x06, 0x05, 0x00] = .ok (.ldi 5 0, []) ∧ encode (.ldi 5 0) = [0x06, 0x05, 0x00] := ⟨rfl, rfl⟩

theorem test_word_st :
    decode [0x07, 0x03, 0x02] = .ok (.st 3 2, []) ∧ encode (.st 3 2) = [0x07, 0x03, 0x02] := ⟨rfl, rfl⟩

theorem test_word_swp :
    decode [0x08, 0x00, 0x04] = .ok (.swp 0 4, []) ∧ encode (.swp 0 4) = [0x08, 0x00, 0x04] := ⟨rfl, rfl⟩

theorem test_word_eq :
    decode [0x09, 0x00, 0x07] = .ok (.eq 0 7, []) ∧ encode (.eq 0 7) = [0x09, 0x00, 0x07] := ⟨rfl, rfl⟩

theorem test_word_neq :
    decode [0x0A, 0x00, 0x02] = .ok (.neq 0 2, []) ∧ encode (.neq 0 2) = [0x0A, 0x00, 0x02] := ⟨rfl, rfl⟩

theorem test_word_jmp : decode [0x0B, 0x03] = .ok (.jmp 3, []) ∧ encode (.jmp 3) = [0x0B, 0x03] := ⟨rfl, rfl⟩

theorem test_word_jmpc : decode [0x0C, 0x0C] = .ok (.jmpc 12, []) ∧ encode (.jmpc 12) = [0x0C, 0x0C] := ⟨rfl, rfl⟩

theorem test_word_jmpe : decode [0x0D, 0xFF] = .ok (.jmpe 255, []) ∧ encode (.jmpe 255) = [0x0D, 0xFF] := ⟨rfl, rfl⟩

theorem test_word_prn : decode [0x0E, 0x04] = .ok (.prn 4, []) ∧ encode (.prn 4) = [0x0E, 0x04] := ⟨rfl, rfl⟩

theorem test_word_hlt : decode [0x0F] = .ok (.hlt, []) ∧ encode (.hlt) = [0x0F] := ⟨rfl, rfl⟩

theorem test_word_unknown : decode [0x7F] = .ok (.unknown 0x7F, []) ∧ encode (.unknown 0x7F) = [0x7F] := ⟨rfl, rfl⟩

theorem test_decode_short_window : decode [0x01, 0x00, 0x01] = .error .shortWindow := rfl

theorem test_decode_no_bytes : decode [] = .error .noOpcode := rfl

theorem test_table_word_add : decodeTableWord 32 0x02010001 = some (.add 0 1 2) := by decide

theorem test_table_word_is_fetched :
    fetch standard (State.reset.withFetchWord 24 0x000506) = .ok (.ldi 5 0) := rfl

/-! ### One step each, 95_test_vectors.md section 2 -/

theorem test_nop_at_255 :
    after (start 0 0 0 0 255 [0x00]) (fun t => (t.pc, t.status)) = some (256, .running) := by decide

theorem test_add_wraps :
    after (start 200 100 0 0 0 [1, 0, 1, 2]) (fun t => (t.x, t.pc)) = some (#v[200, 100, 44, 0], 4) := by decide

theorem test_add_source_is_destination :
    after (start 100 0 0 0 0 [1, 0, 0, 0]) (fun t => t.x) = some #v[200, 0, 0, 0] := by decide

theorem test_sub_borrows :
    after (start 3 5 0 0 0 [2, 0, 1, 2]) (fun t => (t.x, t.pc)) = some (#v[3, 5, 254, 0], 4) := by decide

theorem test_sub_order : after (start 10 3 0 0 0 [2, 0, 1, 0]) (fun t => t.x) = some #v[7, 3, 0, 0] := by decide

theorem test_mul_low_byte :
    after (start 3 86 0 0 0 [3, 0, 1, 2]) (fun t => (t.x, t.pc)) = some (#v[3, 86, 2, 0], 4) := by decide

theorem test_div_is_unsigned :
    after (start 128 2 0 0 0 [4, 0, 1, 2]) (fun t => (t.x, t.error)) = some (#v[128, 2, 64, 0], false) := by decide

theorem test_div_by_zero :
    after (start 7 0 9 0 0 [4, 0, 1, 2]) (fun t => (t.x, t.error, t.pc, t.status)) =
      some (#v[7, 0, 9, 0], true, 4, .running) := by decide

theorem test_ld_into_its_address_register :
    after ({ start 3 0 0 0 0 [5, 0, 0] with ram := [(3, 7)] }) (fun t => (t.x, t.pc)) =
      some (#v[7, 0, 0, 0], 3) := by decide

theorem test_ld_at_255 :
    after (start 0 0 255 7 0 [5, 2, 3]) (fun t => (t.x, t.status)) = some (#v[0, 0, 255, 0], .running) := by decide

theorem test_ldi_immediate_first :
    after (start 0 0 0 0 0 [6, 4, 0]) (fun t => (t.x, t.pc)) = some (#v[4, 0, 0, 0], 3) := by decide

theorem test_ldi_invalid_register :
    after (start 0 0 0 0 0 [6, 0, 5]) (fun t => (t.error, t.status, t.pc)) =
      some (true, .errored .registerError, 0) := by decide

theorem test_st_roles :
    after (start 99 0x20 0 0 0 [7, 0, 1]) (fun t => (t.ram, t.pc)) = some ([(0x20, 99)], 3) := by decide

theorem test_st_zero_is_unlisted :
    after ({ start 0 255 0 0 0 [7, 0, 1] with ram := [(1, 1), (255, 9)] }) (fun t => t.ram) =
      some [(1, 1)] := by decide

theorem test_swp_exchanges :
    after (start 1 2 0 0 0 [8, 0, 1]) (fun t => (t.x, t.pc)) = some (#v[2, 1, 0, 0], 3) := by decide

theorem test_swp_invalid_register :
    after (start 1 0 0 0 0 [8, 0, 4]) (fun t => (t.x, t.status)) =
      some (#v[1, 0, 0, 0], .errored .registerError) := by decide

theorem test_eq_overwrites_c :
    after ({ start 5 6 0 0 0 [9, 0, 1] with compare := true, error := true }) (fun t => (t.compare, t.error, t.pc)) =
      some (false, true, 3) := by decide

theorem test_eq_invalid_register :
    after ({ start 5 0 0 0 0 [9, 0, 7] with compare := true }) (fun t => (t.compare, t.error)) =
      some (true, true) := by decide

theorem test_neq_sets_c :
    after (start 0 0 3 0 0 [0x0A, 0, 2]) (fun t => (t.compare, t.pc)) = some (true, 3) := by decide

theorem test_neq_same_register :
    after ({ start 0 0 0 0 0 [0x0A, 0, 0] with compare := true }) (fun t => t.compare) = some false := by decide

theorem test_jmp : after (start 0 0 0 0 0x10 [0x0B, 0x03]) (fun t => t.pc) = some 3 := by decide

theorem test_jmpc_taken :
    after ({ start 0 0 0 0 0x17 [0x0C, 0x0C] with compare := true, error := true }) (fun t => (t.pc, t.compare, t.error)) =
      some (0x0C, false, true) := by decide

theorem test_jmpc_not_taken :
    after (start 0 0 0 0 0x17 [0x0C, 0x0C]) (fun t => (t.pc, t.compare)) = some (0x19, false) := by decide

theorem test_jmpe_taken :
    after ({ start 0 0 0 0 0x07 [0x0D, 0x0C] with compare := true, error := true }) (fun t => (t.pc, t.compare, t.error)) =
      some (0x0C, true, false) := by decide

theorem test_jmpe_not_taken :
    after ({ start 0 0 0 0 0x07 [0x0D, 0x0C] with compare := true }) (fun t => (t.pc, t.compare)) =
      some (0x09, true) := by decide

theorem test_prn_appends :
    after ({ start 0 255 0 0 0 [0x0E, 1] with out := [65] }) (fun t => (t.out, t.pc)) =
      some ([65, 255], 2) := by decide

theorem test_prn_invalid_register :
    after (start 0 0 0 0 0 [0x0E, 4]) (fun t => (t.out, t.status)) = some ([], .errored .registerError) := by decide

theorem test_hlt_keeps_pc_and_e :
    after ({ start 0 0 0 0 3 [0x0F] with error := true }) (fun t => (t.pc, t.error, t.status)) =
      some (3, true, .halted) := by decide

theorem test_unknown_at_255 :
    after (start 0 0 0 0 255 [0x10]) (fun t => (t.pc, t.error, t.status)) =
      some (255, true, .errored .unknownOpcode) := by decide

theorem test_register_error_before_divide_by_zero :
    after (start 1 0 0 0 0 [4, 0, 1, 9]) (fun t => (t.pc, t.status)) = some (0, .errored .registerError) := by decide

theorem test_window_before_register_error :
    after (start 0 0 0 0 253 [1, 0, 9]) (fun t => (t.pc, t.status)) =
      some (253, .errored .illegalMemoryAccess) := by decide

theorem test_no_step_after_halt : step { State.reset with status := .halted } = .fault (.terminal .halted) := rfl

/-- 95_test_vectors.md, T1 and T3. -/
theorem test_construct :
    (construct [0xAB, 0xCD] .plain).map (fun s => (s.rom, s.pc)) = some ([(0, 0xAB), (1, 0xCD)], 0) ∧
      construct [] .plain = none := by decide

/-- The reset state is what construction gives for an image of zero bytes. -/
theorem test_reset_is_construction : construct [0, 0] .traced = some State.reset := by decide

/-- The source text of program P6's first lines, with a label (95_test_vectors.md, section 3). -/
theorem test_assemble_text :
    assembleText "LDI 7, X\nDIV X, Y, R9 ; invalid\nfix: JMPE fix\n.byte 0x10" =
      some [6, 7, 0, 4, 0, 1, 9, 0x0D, 7, 0x10] := by decide

theorem test_assemble_unmarked_label : assembleText "JMP nowhere" = none := by decide

theorem test_render : render (.ldi 200 5) = "LDI 200, R5" := by decide

/-! ### Witnesses: the hypotheses of each statement can be met, at the ends of their ranges -/

theorem test_witness_AddWritesSumModulo256 :
    (0 : Byte).toNat < 4 ∧ (3 : Byte).toNat < 4 ∧
      (nextOf (exec (.add 0 3 3) (start 255 0 0 255 0 []))).map (·.x[3]) = some 254 := by decide

theorem test_witness_SubWritesDifferenceModulo256 :
    (0 : Byte).toNat < 4 ∧ (3 : Byte).toNat < 4 ∧
      (nextOf (exec (.sub 0 3 3) (start 255 0 0 255 0 []))).map (·.x[3]) = some 0 := by decide

theorem test_witness_MulWritesProductModulo256 :
    (0 : Byte).toNat < 4 ∧ (3 : Byte).toNat < 4 ∧
      (nextOf (exec (.mul 0 3 3) (start 255 0 0 255 0 []))).map (·.x[3]) = some 1 := by decide

theorem test_witness_DivWritesUnsignedQuotient :
    (0 : Byte).toNat < 4 ∧ (3 : Byte).toNat < 4 ∧ (start 255 0 0 255 0 []).x[(3 : Byte).toNat] ≠ 0 := by decide

theorem test_witness_DivideByZeroSetsErrorAndContinues :
    (0 : Byte).toNat < 4 ∧ (3 : Byte).toNat < 4 ∧ (start 255 0 0 0 0 []).x[(3 : Byte).toNat] = 0 := by decide

theorem test_witness_LdLoadsTheAddressedByte :
    (3 : Byte).toNat < 4 ∧
      (nextOf (exec (.ld 3 3) { start 0 0 0 255 0 [] with ram := [(255, 6)] })).map (·.x[3]) = some 6 := by decide

theorem test_witness_LdiLoadsTheImmediate :
    (3 : Byte).toNat < 4 ∧ (nextOf (exec (.ldi 255 3) State.reset)).map (·.x[3]) = some 255 := by decide

theorem test_witness_StStoresOneByte :
    (3 : Byte).toNat < 4 ∧ Memory.wf State.reset.ram ∧
      (nextOf (exec (.st 3 3) (start 0 0 0 255 0 []))).map (·.ram) = some [(255, 255)] := by decide

theorem test_witness_SwpExchangesTwoRegisters :
    (0 : Byte).toNat < 4 ∧ (3 : Byte).toNat < 4 ∧
      (nextOf (exec (.swp 0 3) (start 1 0 0 2 0 []))).map (·.x) = some #v[2, 0, 0, 1] := by decide

theorem test_witness_EqSetsCompareOnEquality :
    (0 : Byte).toNat < 4 ∧ (3 : Byte).toNat < 4 ∧
      (nextOf (exec (.eq 0 3) (start 1 0 0 1 0 []))).map (·.compare) = some true := by decide

theorem test_witness_NeqSetsCompareOnInequality :
    (0 : Byte).toNat < 4 ∧ (3 : Byte).toNat < 4 ∧
      (nextOf (exec (.neq 0 3) (start 1 0 0 1 0 []))).map (·.compare) = some false := by decide

theorem test_witness_PrnEmitsOneByte :
    (3 : Byte).toNat < 4 ∧ (nextOf (exec (.prn 3) (start 0 0 0 255 0 []))).map (·.out) = some [255] := by decide

theorem test_witness_UnknownOpcodeEndsTheRun :
    let s := start 0 0 0 0 255 [0x10]
    s.status = .running ∧ s.pc.toNat ≤ 255 ∧ 16 ≤ (Memory.read s.rom s.pc.toNat).toNat := by decide

theorem test_witness_StepRunsTheDecodedInstruction_decodes :
    let s := start 0 0 0 0 252 [1, 0, 1, 2]
    s.status = .running ∧ decode (romBytesFrom s) = .ok (.add 0 1 2, []) := ⟨rfl, rfl⟩

theorem test_witness_StepRunsTheDecodedInstruction_too_short :
    let s := start 0 0 0 0 253 [1, 0, 1]
    s.status = .running ∧ decode (romBytesFrom s) = .error .shortWindow := ⟨rfl, rfl⟩

theorem test_witness_StepExistsExactlyWhenRunning :
    State.reset.status = .running ∧
      ({ State.reset with status := .errored .registerError } : State).status ≠ .running := by decide

theorem test_witness_FetchPastTheEndIsIllegalMemoryAccess :
    (start 0 0 0 0 255 []).pc.toNat ≤ 256 ∧ fetchOpcode (start 0 0 0 0 255 []) = some 0 ∧
      (start 0 0 0 0 256 []).pc.toNat = 256 ∧ fetchOpcode (start 0 0 0 0 256 []) = none := by decide

theorem test_witness_WindowPastTheEndIsIllegalMemoryAccess :
    let s := start 0 0 0 0 253 [1]
    let t := start 0 0 0 0 252 [1]
    let u := start 0 0 0 0 255 [0x10]
    256 < s.pc.toNat + 1 + windowLen standard (Memory.read s.rom s.pc.toNat) ∧
      t.pc.toNat + 1 + windowLen standard (Memory.read t.rom t.pc.toNat) = 256 ∧
      u.pc.toNat ≤ 255 ∧ 16 ≤ (Memory.read u.rom u.pc.toNat).toNat := by decide

theorem test_witness_InvalidRegisterFieldTakesRegisterError :
    fetch standard (start 0 0 0 0 0 [0x0E, 4]) = .ok (.prn 4) ∧
      fetch standard (start 0 0 0 0 0 [0x0E, 3]) = .ok (.prn 3) ∧
      4 ≤ (4 : Byte).toNat ∧ (3 : Byte).toNat < 4 := ⟨rfl, rfl, by decide, by decide⟩

theorem test_witness_FatalErrorChangesOnlyErrorAndStatus :
    State.reset.status = .running ∧ after (start 0 0 0 0 256 []) (·.status) = some (.errored .illegalMemoryAccess) ∧
      after (start 0 0 0 0 0 [0x0E, 4]) (·.status) = some (.errored .registerError) ∧
      after (start 0 0 0 0 0 [0x10]) (·.status) = some (.errored .unknownOpcode) := by decide

theorem test_witness_ErrorsAreRaisedExactlyWhereTheSpecSays :
    after (start 0 0 0 0 256 []) (·.status) = some (.errored .illegalMemoryAccess) ∧
      after (start 0 0 0 0 253 [1]) (·.status) = some (.errored .illegalMemoryAccess) ∧
      after (start 0 0 0 0 252 [1, 0, 0, 4]) (·.status) = some (.errored .registerError) ∧
      after (start 0 0 0 0 255 [0x10]) (·.status) = some (.errored .unknownOpcode) ∧
      (start 0 0 0 0 0 [4, 0, 0, 0]).error = false ∧
      after (start 0 0 0 0 0 [4, 0, 0, 0]) (fun t => (t.error, t.status)) = some (true, .running) := by decide

theorem test_witness_StepKeepsTheInvariant :
    (start 0 0 0 0 255 [0]).Inv ∧ after (start 0 0 0 0 255 [0]) (·.pc) = some 256 :=
  ⟨⟨by decide, by decide, by decide⟩, by decide⟩

theorem test_witness_ConstructionGivesTheInitialState :
    (construct [7] .plain).isSome = true ∧ (construct (List.replicate 256 0) .plain).isSome = true ∧
      construct [] .plain = none ∧ construct (List.replicate 257 0) .plain = none :=
  ⟨rfl, by rw [construct, if_pos (by rw [List.length_replicate]; decide)]; rfl, rfl,
    if_neg (by rw [List.length_replicate]; decide)⟩

theorem test_witness_ReadIsWholeOrFails :
    memRead [] 255 2 = none ∧ memRead [(254, 1)] 254 2 = some [1, 0] ∧ memRead [] 256 0 = some [] := by decide

theorem test_witness_WriteIsAllOrNothing :
    Memory.wf [(254, 9)] ∧ memWrite [(254, 9)] 255 [1, 2] = none ∧
      memWrite [(254, 9)] 254 [1, 2] = some [(254, 1), (255, 2)] ∧ memWrite [(254, 9)] 256 [] = some [(254, 9)] ∧
      storeByte State.reset 255 7 = some { State.reset with ram := [(255, 7)] } := by decide

theorem test_witness_EqualReadsMeanEqualMemories :
    Memory.wf [(0, 1), (255, 2)] ∧ ∀ a : Nat, Memory.read [(0, 1), (255, 2)] a = Memory.read [(0, 1), (255, 2)] a :=
  ⟨by decide, fun _ => rfl⟩

theorem test_witness_RomIsFilledOnceAndNeverWritten :
    (construct [7] .plain).isSome = true ∧
      after (start 1 1 0 0 0 [7, 0, 1]) (·.rom) = some [(0, 7), (2, 1)] := by decide

theorem test_witness_RamIsWrittenOnlyByStAndReadOnlyByLd :
    (construct [7] .plain).isSome = true ∧ after (start 1 1 0 0 0 [7, 0, 1]) (·.ram) = some [(1, 1)] ∧
      (start 1 1 0 0 0 [7, 0, 1]).ram ≠ [(1, 1)] ∧ (start 0 0 0 0 0 [0]).status = .running ∧
      ∀ r1 r2, fetch standard (start 0 0 0 0 0 [0]) ≠ .ok (.ld r1 r2) :=
  ⟨by decide, by decide, by decide, by decide, fun r1 r2 h => nomatch h⟩

theorem test_witness_StoresNeverReachInstructionFetch :
    (nextOf (exec (.st 0 1) (start 1 1 0 0 0 []))).isSome = true ∧
      (nextOf (exec (.st 0 4) State.reset)).isSome = true := by decide

theorem test_witness_LoadAfterStoreReturnsTheStoredByte :
    (3 : Byte).toNat < 4 ∧ Memory.wf State.reset.ram ∧
      (nextOf (exec (.st 0 3) (start 9 255 0 255 0 []))).map (·.ram) = some [(255, 9)] ∧
      (start 9 255 0 255 0 []).x[(1 : Byte).toNat] = (start 9 255 0 255 0 []).x[(3 : Byte).toNat] ∧
      (start 9 254 0 255 0 []).x[(1 : Byte).toNat] ≠ (start 9 254 0 255 0 []).x[(3 : Byte).toNat] := by decide

theorem test_witness_RunStatusIsOneWay :
    (construct [7] .plain).isSome = true ∧ after (start 0 0 0 0 0 [0x0F]) (·.status) = some .halted ∧
      ({ State.reset with status := .halted } : State).status ≠ .running ∧ (3 : Byte).toNat < 4 ∧
      fetch standard (start 0 0 0 0 0 [4, 3, 3, 3]) = .ok (.div 3 3 3) ∧
      after (start 0 0 0 0 0 [4, 3, 3, 3]) (·.status) = some .running :=
  ⟨by decide, by decide, by decide, by decide, rfl, by decide⟩

theorem test_witness_OutputGrowsOnlyByPrnAndIsNeverReadBack :
    (construct [7] .plain).isSome = true ∧ after (start 0 0 0 5 0 [0x0E, 3]) (·.out) = some [5] ∧
      after (start 0 0 0 5 0 [0x0E, 4]) (·.out) = some [] := by decide

theorem test_witness_CompareChangesOnlyByCompareOrTakenJmpc :
    after (start 0 0 0 0 0 [9, 0, 0]) (·.compare) = some true ∧
      after (start 0 1 0 0 0 [0x0A, 0, 1]) (·.compare) = some true ∧
      after { start 0 0 0 0 0 [0x0C, 0] with compare := true } (·.compare) = some false := by decide

theorem test_witness_ErrorFlagChangesOnlyByErrorOrTakenJmpe :
    after (start 0 0 0 0 0 [0x10]) (·.error) = some true ∧
      after (start 0 0 0 0 0 [4, 0, 0, 0]) (·.error) = some true ∧
      fetch standard (start 0 0 0 0 0 [4, 0, 3, 0]) = .ok (.div 0 3 0) ∧ (start 0 0 0 0 0 [4, 0, 3, 0]).x[3] = 0 ∧
      after { start 0 0 0 0 0 [0x0F] with error := true } (fun t => (t.status, t.error)) = some (.halted, true) ∧
      after { start 0 0 0 0 0 [0x0D, 9] with error := true } (fun t => (t.pc, t.error)) = some (9, false) :=
  ⟨by decide, by decide, rfl, by decide, by decide, by decide⟩

theorem test_witness_RegistersOutsideTheDestinationsAreKept :
    (nextOf (exec (.swp 0 3) (start 1 2 3 4 0 []))).map (·.x) = some #v[4, 2, 3, 1] ∧
      ∀ b ∈ destinations (.swp 0 3), b.toNat ≠ (1 : Fin 4).val := by decide

theorem test_witness_ProgramCounterFallsThroughOrJumps :
    fetch standard (start 0 0 0 0 252 [1]) = .ok (.add 0 0 0) ∧ after (start 0 0 0 0 252 [1]) (·.pc) = some 256 ∧
      fetch standard (start 0 0 0 0 254 [0x0B, 0]) = .ok (.jmp 0) ∧
      after (start 0 0 0 0 254 [0x0B, 0]) (·.pc) = some 0 ∧
      after (start 0 0 0 0 255 [0x0F]) (fun t => (t.pc, t.status)) = some (255, .halted) :=
  ⟨rfl, by decide, rfl, by decide, by decide⟩

theorem test_witness_DecodeOfEncodeIsTheInstruction :
    (Instr.unknown 16).wellFormed = true ∧ (Instr.div 0 255 4).wellFormed = true := by decide

theorem test_witness_EncodeOfDecodeIsTheBytes :
    decodeWith standard [0x0F, 0x01] = .ok (.hlt, [0x01]) := rfl

theorem test_witness_DecodingFailsOnlyOnMissingBytes :
    windowLen standard 0x01 ≤ [0, 1, 2].length ∧ [0, 1].length < windowLen standard 0x01 := by decide

theorem test_witness_UnknownOpcodesDecodeWithAnEmptyWindow :
    16 ≤ (0x10 : Byte).toNat ∧ 16 ≤ (0xFF : Byte).toNat := by decide

theorem test_witness_DivideByZeroIsSeenAndClearedByJmpe :
    (3 : Byte).toNat < 4 ∧ (start 7 0 0 0 0 []).x[(3 : Byte).toNat] = 0 ∧
      (nextOf (exec (.div 0 3 3) (start 7 0 0 0 0 []))).map (·.error) = some true := by decide

theorem test_witness_CompareIsSeenAndConsumedByJmpc :
    (0 : Byte).toNat < 4 ∧ (3 : Byte).toNat < 4 ∧
      ((nextOf (exec (.eq 0 3) (start 7 0 0 7 0 []))).bind fun t => nextOf (exec (.jmpc 9) t)).map (·.pc) = some 9 ∧
      ((nextOf (exec (.neq 0 3) (start 7 0 0 7 0 []))).bind fun t => nextOf (exec (.jmpc 9) t)).map (·.pc) =
        some 5 := by decide

theorem test_witness_RunIsTheSequenceOfStepsToTheFirstTerminalState :
    (nextOf (step (start 0 0 0 0 0 [0, 0x0F]))).isSome = true ∧
      (runFuel 1 (start 0 0 0 0 0 [0, 0x0F])).status = .running ∧
      (runFuel 2 (start 0 0 0 0 0 [0, 0x0F])).status ≠ .running := by decide

theorem test_witness_FinalDumpIsTheWholeFinalState :
    finalDump State.reset = none ∧ (finalDump { State.reset with status := .halted }).isSome = true := by decide

theorem test_witness_StatusCodesAreDistinct :
    statusCode (.errored .unknownOpcode) = statusCode (.errored .unknownOpcode) := rfl

end Sys2Proof.Tests
end

/-! # Proofs: the state (10_state.md)

The execute stage is said once (`executor`, `exec_cases`), then the whole step (`stepWith_next_cases`). The statements
about the state follow from what one executor does to the status and to the output port. -/

namespace Sys2Proof.Machine

/-! ### The execute stage, said once (rules R67, R72) -/

/-- What the executor of an instruction answers once the validation stage has accepted every register field. `exec_cases`
ties it to `exec`. -/
def executor : (i : Instr) → (∀ r ∈ i.regs, r.toNat < 4) → State → Executed
  | .nop, _, s => ⟨s, 1, .cont⟩
  | .add r1 r2 r3, h, s => arithmetic aluAdd s ⟨r1.toNat, h r1 (by simp [Instr.regs])⟩
      ⟨r2.toNat, h r2 (by simp [Instr.regs])⟩ ⟨r3.toNat, h r3 (by simp [Instr.regs])⟩
  | .sub r1 r2 r3, h, s => arithmetic aluSub s ⟨r1.toNat, h r1 (by simp [Instr.regs])⟩
      ⟨r2.toNat, h r2 (by simp [Instr.regs])⟩ ⟨r3.toNat, h r3 (by simp [Instr.regs])⟩
  | .mul r1 r2 r3, h, s => arithmetic aluMul s ⟨r1.toNat, h r1 (by simp [Instr.regs])⟩
      ⟨r2.toNat, h r2 (by simp [Instr.regs])⟩ ⟨r3.toNat, h r3 (by simp [Instr.regs])⟩
  | .div r1 r2 r3, h, s => divide s ⟨r1.toNat, h r1 (by simp [Instr.regs])⟩
      ⟨r2.toNat, h r2 (by simp [Instr.regs])⟩ ⟨r3.toNat, h r3 (by simp [Instr.regs])⟩
  | .ld r1 r2, h, s => load s ⟨r1.toNat, h r1 (by simp [Instr.regs])⟩ ⟨r2.toNat, h r2 (by simp [Instr.regs])⟩
  | .ldi imm r1, h, s => ⟨s.setReg ⟨r1.toNat, h r1 (by simp [Instr.regs])⟩ imm, 3, .cont⟩
  | .st r1 r2, h, s => store s ⟨r1.toNat, h r1 (by simp [Instr.regs])⟩ ⟨r2.toNat, h r2 (by simp [Instr.regs])⟩
  | .swp r1 r2, h, s => exchange s ⟨r1.toNat, h r1 (by simp [Instr.regs])⟩ ⟨r2.toNat, h r2 (by simp [Instr.regs])⟩
  | .eq r1 r2, h, s =>
      compareInto equalFlag s ⟨r1.toNat, h r1 (by simp [Instr.regs])⟩ ⟨r2.toNat, h r2 (by simp [Instr.regs])⟩
  | .neq r1 r2, h, s =>
      compareInto notEqualFlag s ⟨r1.toNat, h r1 (by simp [Instr.regs])⟩ ⟨r2.toNat, h r2 (by simp [Instr.regs])⟩
  | .jmp imm, _, s => ⟨s.setPc (jumpTarget imm), 0, .cont⟩
  | .jmpc imm, _, s => jumpIf s.compare (State.setCompare · false) imm s
  | .jmpe imm, _, s => jumpIf s.error (State.setError · false) imm s
  | .prn r1, h, s => ⟨s.emit (s.reg ⟨r1.toNat, h r1 (by simp [Instr.regs])⟩), 2, .cont⟩
  | .hlt, _, s => ⟨s, 1, .halt⟩
  | .unknown _, _, s => ⟨s, 0, .fail (.fatal .unknownOpcode)⟩

/-- An instruction without register fields always reaches its executor. -/
theorem dispatch0_fields (s : State) (run : Executed) :
    (∃ _ : ∀ r ∈ ([] : List Byte), r.toNat < 4, dispatch0 run = .next (settle run)) ∨
    ((∃ r ∈ ([] : List Byte), 4 ≤ r.toNat) ∧ dispatch0 run = .next (fatal .registerError s)) :=
  .inl ⟨by simp, rfl⟩

/-- `dispatch1_cases` in terms of the list of fields. -/
theorem dispatch1_fields (r1 : Byte) (s : State) (run : RegIndex → Executed) :
    (∃ h : ∀ r ∈ [r1], r.toNat < 4, dispatch1 r1 s run = .next (settle (run ⟨r1.toNat, h r1 (by simp)⟩))) ∨
    ((∃ r ∈ [r1], 4 ≤ r.toNat) ∧ dispatch1 r1 s run = .next (fatal .registerError s)) := by
  obtain ⟨h1, heq⟩ | ⟨h1, heq⟩ := dispatch1_cases r1 s run
  · exact .inl ⟨by simpa using h1, heq⟩
  · exact .inr ⟨by simpa using h1, heq⟩

/-- `dispatch2_cases` in terms of the list of fields. -/
theorem dispatch2_fields (r1 r2 : Byte) (s : State) (run : RegIndex → RegIndex → Executed) :
    (∃ h : ∀ r ∈ [r1, r2], r.toNat < 4,
      dispatch2 r1 r2 s run = .next (settle (run ⟨r1.toNat, h r1 (by simp)⟩ ⟨r2.toNat, h r2 (by simp)⟩))) ∨
    ((∃ r ∈ [r1, r2], 4 ≤ r.toNat) ∧ dispatch2 r1 r2 s run = .next (fatal .registerError s)) := by
  obtain ⟨h1, h2, heq⟩ | ⟨hbad, heq⟩ := dispatch2_cases r1 r2 s run
  · exact .inl ⟨by simp [h1, h2], heq⟩
  · exact .inr ⟨by simpa using hbad, heq⟩

/-- `dispatch3_cases` in terms of the list of fields. -/
theorem dispatch3_fields (r1 r2 r3 : Byte) (s : State) (run : RegIndex → RegIndex → RegIndex → Executed) :
    (∃ h : ∀ r ∈ [r1, r2, r3], r.toNat < 4, dispatch3 r1 r2 r3 s run =
      .next (settle (run ⟨r1.toNat, h r1 (by simp)⟩ ⟨r2.toNat, h r2 (by simp)⟩ ⟨r3.toNat, h r3 (by simp)⟩))) ∨
    ((∃ r ∈ [r1, r2, r3], 4 ≤ r.toNat) ∧ dispatch3 r1 r2 r3 s run = .next (fatal .registerError s)) := by
  obtain ⟨h1, h2, h3, heq⟩ | ⟨hbad, heq⟩ := dispatch3_cases r1 r2 r3 s run
  · exact .inl ⟨by simp [h1, h2, h3], heq⟩
  · exact .inr ⟨by simpa using hbad, heq⟩

/-- The execute stage: every register field is valid and the executor's answer is handled, or some field is invalid and
the register error is taken (rules R72, R74). -/
theorem exec_cases (i : Instr) (s : State) :
    (∃ h : ∀ r ∈ i.regs, r.toNat < 4, exec i s = .next (settle (executor i h s))) ∨
    ((∃ r ∈ i.regs, 4 ≤ r.toNat) ∧ exec i s = .next (fatal .registerError s)) := by
  cases i with
  | nop => exact dispatch0_fields s _
  | add r1 r2 r3 => exact dispatch3_fields r1 r2 r3 s _
  | sub r1 r2 r3 => exact dispatch3_fields r1 r2 r3 s _
  | mul r1 r2 r3 => exact dispatch3_fields r1 r2 r3 s _
  | div r1 r2 r3 => exact dispatch3_fields r1 r2 r3 s _
  | ld r1 r2 => exact dispatch2_fields r1 r2 s _
  | ldi imm r1 => exact dispatch1_fields r1 s _
  | st r1 r2 => exact dispatch2_fields r1 r2 s _
  | swp r1 r2 => exact dispatch2_fields r1 r2 s _
  | eq r1 r2 => exact dispatch2_fields r1 r2 s _
  | neq r1 r2 => exact dispatch2_fields r1 r2 s _
  | jmp imm => exact dispatch0_fields s _
  | jmpc imm => exact dispatch0_fields s _
  | jmpe imm => exact dispatch0_fields s _
  | prn r1 => exact dispatch1_fields r1 s _
  | hlt => exact dispatch0_fields s _
  | unknown op => exact dispatch0_fields s _

theorem exec_of_valid {i : Instr} (h : ∀ r ∈ i.regs, r.toNat < 4) (s : State) :
    exec i s = .next (settle (executor i h s)) := by
  obtain ⟨_, heq⟩ | ⟨⟨r, hr, hge⟩, _⟩ := exec_cases i s
  · exact heq
  · exact absurd (h r hr) (Nat.not_lt.mpr hge)

theorem exec_of_invalid {i : Instr} (h : ∃ r ∈ i.regs, 4 ≤ r.toNat) (s : State) :
    exec i s = .next (fatal .registerError s) := by
  obtain ⟨hlt, _⟩ | ⟨_, heq⟩ := exec_cases i s
  · obtain ⟨r, hr, hge⟩ := h
    exact absurd (hlt r hr) (Nat.not_lt.mpr hge)
  · exact heq

/-! ### The whole step, said once (rules R67, R68) -/

theorem stepWith_terminal (cfg : Config) {s : State} (h : s.status ≠ .running) :
    stepWith cfg s = .fault (.terminal s.status) := by
  cases hs : s.status with
  | running => exact absurd hs h
  | halted => simp only [stepWith, hs]
  | errored k => simp only [stepWith, hs]

theorem stepWith_of_fetch_ok {cfg : Config} {s : State} {i : Instr} (hrun : s.status = .running)
    (hfetch : fetch cfg s = .ok i) : stepWith cfg s = exec i s := by
  simp only [stepWith, hrun, hfetch]

theorem stepWith_of_fetch_error {cfg : Config} {s : State} {k : FatalKind} (hrun : s.status = .running)
    (hfetch : fetch cfg s = .error k) : stepWith cfg s = .next (fatal k s) := by
  simp only [stepWith, hrun, hfetch]

/-- Everything a step that answers a next state can have done: the fetch failed, a register field of the fetched
instruction was invalid, or its executor ran. -/
theorem stepWith_next_cases {cfg : Config} {s t : State} (h : stepWith cfg s = .next t) :
    s.status = .running ∧
    ((fetch cfg s = .error .illegalMemoryAccess ∧ t = fatal .illegalMemoryAccess s) ∨
      ∃ i, fetch cfg s = .ok i ∧
        (((∃ r ∈ i.regs, 4 ≤ r.toNat) ∧ t = fatal .registerError s) ∨
          ∃ hv : ∀ r ∈ i.regs, r.toNat < 4, t = settle (executor i hv s))) := by
  by_cases hrun : s.status = .running
  · refine ⟨hrun, ?_⟩
    obtain ⟨i, hi, hexec⟩ | ⟨herr, hfatal⟩ := stepWith_running (cfg := cfg) hrun
    · obtain ⟨hv, heq⟩ | ⟨hbad, heq⟩ := exec_cases i s
      · exact .inr ⟨i, hi, .inr ⟨hv, Host.Outcome.next.inj (h.symm.trans (hexec.trans heq))⟩⟩
      · exact .inr ⟨i, hi, .inl ⟨hbad, Host.Outcome.next.inj (h.symm.trans (hexec.trans heq))⟩⟩
    · exact .inl ⟨herr, Host.Outcome.next.inj (h.symm.trans hfatal)⟩
  · rw [stepWith_terminal cfg hrun] at h
    cases h

/-! ### What a completed execution leaves (rules R25, R26, R33) -/

/-- The run state after an execution whose register fields were all valid; `settle_executor_frame` ties it to the
model. -/
def completedStatus : Instr → Status → Status
  | .hlt, _ => .halted
  | .unknown _, _ => .errored .unknownOpcode
  | _, st => st

theorem completedStatus_eq_halted (i : Instr) : completedStatus i .running = .halted ↔ i = .hlt := by
  cases i <;> simp [completedStatus]

theorem completedStatus_ne_registerError (i : Instr) :
    completedStatus i .running ≠ .errored .registerError := by
  cases i <;> simp [completedStatus]

/-- The run state follows from the instruction alone, program memory is kept, and only PRN touches the output port. -/
theorem settle_executor_frame (i : Instr) (h : ∀ r ∈ i.regs, r.toNat < 4) (s : State) :
    (settle (executor i h s)).status = completedStatus i s.status ∧
    (settle (executor i h s)).rom = s.rom ∧
    ((∀ r1, i ≠ .prn r1) → (settle (executor i h s)).out = s.out) := by
  cases i with
  | div r1 r2 r3 =>
    rw [executor]
    obtain ⟨-, heq⟩ | ⟨-, heq⟩ := divide_cases s ⟨r1.toNat, h r1 (by simp [Instr.regs])⟩
      ⟨r2.toNat, h r2 (by simp [Instr.regs])⟩ ⟨r3.toNat, h r3 (by simp [Instr.regs])⟩ <;>
      rw [heq] <;> exact ⟨rfl, rfl, fun _ => rfl⟩
  | ld r1 r2 =>
    rw [executor, load_eq]
    exact ⟨rfl, rfl, fun _ => rfl⟩
  | st r1 r2 =>
    rw [executor, store_eq]
    exact ⟨rfl, rfl, fun _ => rfl⟩
  | jmpc imm =>
    rw [executor]
    obtain ⟨-, heq⟩ | ⟨-, heq⟩ := jumpIf_cases s.compare (State.setCompare · false) imm s <;>
      rw [heq] <;> exact ⟨rfl, rfl, fun _ => rfl⟩
  | jmpe imm =>
    rw [executor]
    obtain ⟨-, heq⟩ | ⟨-, heq⟩ := jumpIf_cases s.error (State.setError · false) imm s <;>
      rw [heq] <;> exact ⟨rfl, rfl, fun _ => rfl⟩
  | prn r1 => exact ⟨rfl, rfl, fun hne => absurd rfl (hne r1)⟩
  | _ => exact ⟨rfl, rfl, fun _ => rfl⟩

theorem settle_executor_status (i : Instr) (h : ∀ r ∈ i.regs, r.toNat < 4) (s : State) :
    (settle (executor i h s)).status = completedStatus i s.status := by
  obtain ⟨hstatus, -, -⟩ := settle_executor_frame i h s
  exact hstatus

theorem settle_executor_out_of_ne_prn {i : Instr} (hne : ∀ r1, i ≠ .prn r1) (h : ∀ r ∈ i.regs, r.toNat < 4)
    (s : State) : (settle (executor i h s)).out = s.out := by
  obtain ⟨-, -, hout⟩ := settle_executor_frame i h s
  exact hout hne

theorem settle_executor_prn_out {r1 : Byte} (h : ∀ r ∈ (Instr.prn r1).regs, r.toNat < 4) (h1 : r1.toNat < 4)
    (s : State) : (settle (executor (.prn r1) h s)).out = s.out ++ [s.x[r1.toNat]] := rfl

/-! ### Register validation (O23) -/

/-- Settles O23: validation comes before the executor, and no executor raises RegisterError. -/
theorem invalidRegisterFieldTakesRegisterError : Obligations.InvalidRegisterFieldTakesRegisterError := by
  intro cfg s i hrun hfetch
  rw [stepWith_of_fetch_ok hrun hfetch]
  refine ⟨fun hbad => exec_of_invalid hbad s, fun hvalid t ht => ?_⟩
  obtain rfl : settle (executor i hvalid s) = t := Host.Outcome.next.inj ((exec_of_valid hvalid s).symm.trans ht)
  rw [settle_executor_status, hrun]
  exact completedStatus_ne_registerError i

/-! ### The run state (O36) -/

/-- Construction fills program memory and leaves every other field at its reset value (rule R117). -/
theorem construct_some {img : List Byte} {v : Variant} {s : State} (h : construct img v = some s) :
    s = { State.reset with rom := Memory.writeBytes [] 0 img } := by
  rw [construct] at h
  split at h
  · exact (Option.some.inj h).symm
  · cases h

/-- A step ends in HALTED exactly when it executed HLT (rule R26). -/
theorem stepWith_status_eq_halted {cfg : Config} {s t : State} (h : stepWith cfg s = .next t) :
    t.status = .halted ↔ fetch cfg s = .ok .hlt := by
  obtain ⟨hrun, ⟨herr, rfl⟩ | ⟨i, hi, ⟨⟨r, hr, -⟩, rfl⟩ | ⟨hv, rfl⟩⟩⟩ := stepWith_next_cases h
  · simp [herr]
  · have hne : i ≠ .hlt := by
      rintro rfl
      simp [Instr.regs] at hr
    simp [hi, hne]
  · rw [settle_executor_status, hrun, completedStatus_eq_halted, hi, Except.ok.injEq]

/-- A terminal state is fixed under any fuel (rule R68). -/
theorem runFuel_terminal {s : State} (h : s.status ≠ .running) (n : Nat) : runFuel n s = s := by
  cases n with
  | zero => rfl
  | succ n => rw [runFuel, step, stepWith_terminal standard h]

/-- Settles O36: the run state of a completed execution follows from the instruction alone, and a terminal state has no
step. -/
theorem runStatusIsOneWay : Obligations.RunStatusIsOneWay := by
  refine ⟨fun img v s h => ?_, fun cfg s t h => stepWith_status_eq_halted h, fun s h n => runFuel_terminal h n, ?_⟩
  · rw [construct_some h]
    rfl
  · intro cfg s t r1 r2 r3 h1 h2 h3 hstep hfetch
    obtain ⟨hrun, -⟩ := stepWith_next_cases hstep
    have hvalid : ∀ r ∈ (Instr.div r1 r2 r3).regs, r.toNat < 4 := by simp [Instr.regs, h1, h2, h3]
    rw [stepWith_of_fetch_ok hrun hfetch, exec_of_valid hvalid] at hstep
    rw [← Host.Outcome.next.inj hstep, settle_executor_status, hrun]
    rfl

/-! ### The output port (O37) -/

/-- The state with another output in place of its own. -/
def State.withOut (s : State) (o : List Byte) : State := { s with out := o }

theorem agreeButOut_withOut (s : State) (o : List Byte) : agreeButOut s (s.withOut o) := rfl

theorem fetch_withOut (cfg : Config) (s : State) (o : List Byte) : fetch cfg (s.withOut o) = fetch cfg s := rfl

/-- No executor reads the output port: with another output it answers the same advance, the same outcome and the same
state but for the output. -/
theorem executor_withOut (i : Instr) (h : ∀ r ∈ i.regs, r.toNat < 4) (s : State) (o : List Byte) :
    ∃ o', executor i h (s.withOut o) =
      { executor i h s with state := (executor i h s).state.withOut o' } := by
  cases i with
  | div r1 r2 r3 =>
    refine ⟨o, ?_⟩
    rw [executor, executor, divide, divide]
    change (if s.reg _ = 0 then _ else _) = _
    split <;> rfl
  | ld r1 r2 =>
    refine ⟨o, ?_⟩
    rw [executor, executor, load_eq, load_eq]
    rfl
  | st r1 r2 =>
    refine ⟨o, ?_⟩
    rw [executor, executor, store_eq, store_eq]
    rfl
  | jmpc imm =>
    refine ⟨o, ?_⟩
    rw [executor, executor, jumpIf, jumpIf]
    change (if s.compare then _ else _) = _
    split <;> rfl
  | jmpe imm =>
    refine ⟨o, ?_⟩
    rw [executor, executor, jumpIf, jumpIf]
    change (if s.error then _ else _) = _
    split <;> rfl
  | prn r1 => exact ⟨o ++ [s.reg ⟨r1.toNat, h r1 (by simp [Instr.regs])⟩], rfl⟩
  | _ => exact ⟨o, rfl⟩

/-- Outcome handling does not read the output port. -/
theorem settle_withOut (e : Executed) (o : List Byte) :
    settle { e with state := e.state.withOut o } = (settle e).withOut o := by
  obtain ⟨s, n, outcome⟩ := e
  match outcome with
  | .cont => rfl
  | .halt => rfl
  | .fail .divideByZero => rfl
  | .fail (.fatal _) => rfl

/-- Replacing the output by any other changes nothing of a step's result but the output. -/
theorem stepWith_withOut {cfg : Config} {s t : State} (h : stepWith cfg s = .next t) (o : List Byte) :
    ∃ o', stepWith cfg (s.withOut o) = .next (t.withOut o') := by
  obtain ⟨hrun, ⟨herr, rfl⟩ | ⟨i, hi, hcases⟩⟩ := stepWith_next_cases h
  · exact ⟨o, stepWith_of_fetch_error (s := s.withOut o) hrun ((fetch_withOut cfg s o).trans herr)⟩
  · have hstep : stepWith cfg (s.withOut o) = exec i (s.withOut o) :=
      stepWith_of_fetch_ok hrun ((fetch_withOut cfg s o).trans hi)
    obtain ⟨hbad, rfl⟩ | ⟨hv, rfl⟩ := hcases
    · exact ⟨o, hstep.trans (exec_of_invalid hbad (s.withOut o))⟩
    · obtain ⟨o', heq⟩ := executor_withOut i hv s o
      exact ⟨o', by rw [hstep, exec_of_valid hv, heq, settle_withOut]⟩

/-- A step appends the byte of PRN's valid register, or leaves the output alone and executed no such PRN. -/
theorem stepWith_out_cases {cfg : Config} {s t : State} (h : stepWith cfg s = .next t) :
    t.out = s.out ∧ (∀ r1 : Byte, r1.toNat < 4 → fetch cfg s ≠ .ok (.prn r1)) ∨
    ∃ (r1 : Byte) (_ : r1.toNat < 4), fetch cfg s = .ok (.prn r1) ∧ t.out = s.out ++ [s.x[r1.toNat]] := by
  obtain ⟨-, ⟨herr, rfl⟩ | ⟨i, hi, ⟨⟨r, hr, hge⟩, rfl⟩ | ⟨hv, rfl⟩⟩⟩ := stepWith_next_cases h
  · exact .inl ⟨rfl, by simp [herr]⟩
  · refine .inl ⟨rfl, fun r1 h1 hprn => ?_⟩
    obtain rfl : i = .prn r1 := Except.ok.inj (hi.symm.trans hprn)
    obtain rfl : r = r1 := by simpa [Instr.regs] using hr
    omega
  · by_cases hprn : ∃ r1, i = .prn r1
    · obtain ⟨r1, rfl⟩ := hprn
      have h1 : r1.toNat < 4 := hv r1 (by simp [Instr.regs])
      exact .inr ⟨r1, h1, hi, settle_executor_prn_out hv h1 s⟩
    · have hne : ∀ r1, i ≠ .prn r1 := fun r1 heq => hprn ⟨r1, heq⟩
      exact .inl ⟨settle_executor_out_of_ne_prn hne hv s, fun r1 _ heq =>
        hne r1 (Except.ok.inj (hi.symm.trans heq))⟩

/-- Settles O37: the step commutes with replacing the output, up to the output itself. -/
theorem outputGrowsOnlyByPrnAndIsNeverReadBack : Obligations.OutputGrowsOnlyByPrnAndIsNeverReadBack := by
  refine ⟨fun img v s h => ?_, fun cfg s t h => stepWith_out_cases h, fun cfg s t o h => ?_⟩
  · rw [construct_some h]
    rfl
  · obtain ⟨o', hstep⟩ := stepWith_withOut h o
    exact ⟨t.withOut o', hstep, agreeButOut_withOut t o'⟩

end Sys2Proof.Machine

/-! # Proofs: the memory (20_memory.md)

First what a read answers and what a run of byte writes leaves at each address, then who touches which space: no
instruction writes program memory, and an executor other than LD and ST commutes with replacing data memory. -/

namespace Sys2Proof.Machine

/-! ### The read primitive (rule R34, O29) -/

theorem memRead_of_gt {m : Memory} {a n : Nat} (h : 256 < a + n) : memRead m a n = none :=
  if_neg (Nat.not_le.mpr h)

theorem memRead_of_le {m : Memory} {a n : Nat} (h : a + n ≤ 256) :
    memRead m a n = some ((List.range n).map fun k => Memory.read m (a + k)) :=
  if_pos h

/-- Settles O29: the two sides of the bounds check. -/
theorem readIsWholeOrFails : Obligations.ReadIsWholeOrFails := by
  intro m a n
  refine ⟨memRead_of_gt, fun hle => ⟨_, memRead_of_le hle, by simp, fun k hk => ?_⟩⟩
  rw [List.getElem_map, List.getElem_range]

/-! ### Reading after a run of byte writes (rules R33, R35) -/

/-- Writing bytes leaves every address outside their range as it was. -/
theorem Memory.read_writeBytes_outside (m : Memory) {a c : Nat} {vs : List Byte}
    (h : c < a ∨ a + vs.length ≤ c) : Memory.read (Memory.writeBytes m a vs) c = Memory.read m c := by
  induction vs generalizing m a with
  | nil => rfl
  | cons v vs ih =>
    rw [List.length_cons] at h
    rw [Memory.writeBytes, ih _ (by omega), Memory.read_write_other m v (by omega)]

/-- Writing bytes inside the space puts the `k`-th of them at the `k`-th address of the range. -/
theorem Memory.read_writeBytes_inside {m : Memory} (hm : Memory.wf m) {a k : Nat} {vs : List Byte}
    (hle : a + vs.length ≤ 256) (hk : k < vs.length) :
    Memory.read (Memory.writeBytes m a vs) (a + k) = vs[k] := by
  induction vs generalizing m a k with
  | nil => cases hk
  | cons v vs ih =>
    rw [List.length_cons] at hle hk
    rw [Memory.writeBytes]
    cases k with
    | zero =>
      rw [Memory.read_writeBytes_outside _ (by omega)]
      exact Memory.read_write_same hm a v
    | succ k =>
      rw [← Nat.add_assoc, Nat.add_right_comm]
      exact ih (Memory.wf_write hm (by omega)) (by omega) (by omega)

/-- Only an image that fits the space is constructed (rule R117). -/
theorem construct_length_le {img : List Byte} {v : Variant} {s : State} (h : construct img v = some s) :
    img.length ≤ 256 := by
  rw [construct] at h
  split at h
  · next hlen => exact hlen.right
  · cases h

/-- Construction puts the image in program memory from address 0 on. -/
theorem construct_read_rom_image {img : List Byte} {v : Variant} {s : State} (h : construct img v = some s)
    {a : Nat} (ha : a < img.length) : Memory.read s.rom a = img[a] := by
  have hle : 0 + img.length ≤ 256 := by
    have := construct_length_le h
    omega
  rw [construct_some h]
  have hread := Memory.read_writeBytes_inside State.reset_wf.left hle ha
  rwa [Nat.zero_add] at hread

/-- Construction leaves program memory after the image at zero. -/
theorem construct_read_rom_padding {img : List Byte} {v : Variant} {s : State} (h : construct img v = some s)
    {a : Nat} (ha : img.length ≤ a) : Memory.read s.rom a = 0 := by
  rw [construct_some h]
  exact Memory.read_writeBytes_outside [] (.inr (by omega))

/-- Construction leaves data memory at zero. -/
theorem construct_read_ram {img : List Byte} {v : Variant} {s : State} (h : construct img v = some s) (a : Nat) :
    Memory.read s.ram a = 0 := by
  rw [construct_some h]
  rfl

/-! ### Program memory is never written (rule R33, O32) -/

theorem exec_rom {i : Instr} {s t : State} (h : exec i s = .next t) : t.rom = s.rom := by
  obtain ⟨hv, heq⟩ | ⟨-, heq⟩ := exec_cases i s
  · obtain rfl := Host.Outcome.next.inj (heq.symm.trans h)
    obtain ⟨-, hrom, -⟩ := settle_executor_frame i hv s
    exact hrom
  · obtain rfl := Host.Outcome.next.inj (heq.symm.trans h)
    exact fatal_rom s .registerError

theorem stepWith_rom {cfg : Config} {s t : State} (h : stepWith cfg s = .next t) : t.rom = s.rom := by
  obtain ⟨hrun, -⟩ := stepWith_next_cases h
  obtain ⟨i, -, hexec⟩ | ⟨-, hfatal⟩ := stepWith_running (cfg := cfg) hrun
  · exact exec_rom (hexec.symm.trans h)
  · obtain rfl := Host.Outcome.next.inj (hfatal.symm.trans h)
    exact fatal_rom s .illegalMemoryAccess

theorem runFuel_rom (n : Nat) (s : State) : (runFuel n s).rom = s.rom := by
  induction n generalizing s with
  | zero => rfl
  | succ n ih =>
    rw [runFuel]
    split
    · next t hstep => exact (ih t).trans (stepWith_rom hstep)
    · rfl
    · rfl

/-- Settles O32, by induction on the fuel of the run. -/
theorem romIsFilledOnceAndNeverWritten : Obligations.RomIsFilledOnceAndNeverWritten :=
  ⟨fun _ _ _ h => ⟨fun _ ha => construct_read_rom_image h ha, fun _ ha => construct_read_rom_padding h ha⟩,
    fun _ _ _ h => stepWith_rom h, runFuel_rom⟩

/-! ### Instruction fetch reads program memory alone (rule R48, O34) -/

/-- Fetch depends on nothing but the program counter and program memory. -/
theorem fetch_congr (cfg : Config) {s t : State} (hpc : s.pc = t.pc) (hrom : s.rom = t.rom) :
    fetch cfg s = fetch cfg t := by
  simp only [fetch, fetchOpcode, fetchWindow, hpc, hrom]

/-- Settles O34: ST keeps program memory, and fetch reads nothing else that it could have written. -/
theorem storesNeverReachInstructionFetch : Obligations.StoresNeverReachInstructionFetch := by
  intro cfg s t r1 r2 h
  have hrom : t.rom = s.rom := exec_rom h
  exact ⟨hrom, fun p m => fetch_congr cfg rfl hrom⟩

/-! ### Who touches data memory (rule R36, O33) -/

theorem agreeButRam_setRam (s : State) (m : Memory) : agreeButRam s (s.setRam m) := rfl

theorem fetch_setRam (cfg : Config) (s : State) (m : Memory) : fetch cfg (s.setRam m) = fetch cfg s :=
  fetch_congr cfg rfl rfl

/-- An executor other than LD and ST commutes with replacing data memory: it neither reads nor writes it. -/
theorem executor_setRam {i : Instr} (hld : ∀ r1 r2, i ≠ .ld r1 r2) (hst : ∀ r1 r2, i ≠ .st r1 r2)
    (h : ∀ r ∈ i.regs, r.toNat < 4) (s : State) (m : Memory) :
    executor i h (s.setRam m) = { executor i h s with state := (executor i h s).state.setRam m } := by
  cases i with
  | ld r1 r2 => exact absurd rfl (hld r1 r2)
  | st r1 r2 => exact absurd rfl (hst r1 r2)
  | div r1 r2 r3 =>
    rw [executor, executor, divide, divide]
    change (if s.reg _ = 0 then _ else _) = _
    split <;> rfl
  | jmpc imm =>
    rw [executor, executor, jumpIf, jumpIf]
    change (if s.compare then _ else _) = _
    split <;> rfl
  | jmpe imm =>
    rw [executor, executor, jumpIf, jumpIf]
    change (if s.error then _ else _) = _
    split <;> rfl
  | _ => rfl

/-- No executor but ST's writes data memory. For one that does not read it either, replacing data memory by itself
shows this. -/
theorem executor_ram_of_ne_st {i : Instr} (hst : ∀ r1 r2, i ≠ .st r1 r2) (h : ∀ r ∈ i.regs, r.toNat < 4)
    (s : State) : (executor i h s).state.ram = s.ram := by
  by_cases hld : ∃ r1 r2, i = .ld r1 r2
  · obtain ⟨r1, r2, rfl⟩ := hld
    rw [executor, load_eq, State.setReg_ram]
  · have hne : ∀ r1 r2, i ≠ .ld r1 r2 := fun r1 r2 heq => hld ⟨r1, r2, heq⟩
    exact congrArg (fun e => e.state.ram) (executor_setRam hne hst h s s.ram)

/-- No executor but LD's reads data memory: over another data memory it answers the same advance, the same outcome and
the same state but for data memory. -/
theorem executor_setRam_of_ne_ld {i : Instr} (hld : ∀ r1 r2, i ≠ .ld r1 r2) (h : ∀ r ∈ i.regs, r.toNat < 4)
    (s : State) (m : Memory) : ∃ m', executor i h (s.setRam m) =
      { executor i h s with state := (executor i h s).state.setRam m' } := by
  by_cases hst : ∃ r1 r2, i = .st r1 r2
  · obtain ⟨r1, r2, rfl⟩ := hst
    rw [executor, executor, store_eq, store_eq]
    exact ⟨_, rfl⟩
  · exact ⟨m, executor_setRam hld (fun r1 r2 heq => hst ⟨r1, r2, heq⟩) h s m⟩

/-- Outcome handling neither reads nor writes data memory. -/
theorem settle_setRam (e : Executed) (m : Memory) :
    settle { e with state := e.state.setRam m } = (settle e).setRam m := by
  obtain ⟨s, n, outcome⟩ := e
  match outcome with
  | .cont => rfl
  | .halt => rfl
  | .fail .divideByZero => rfl
  | .fail (.fatal _) => rfl

theorem settle_ram (e : Executed) : (settle e).ram = e.state.ram :=
  calc (settle e).ram = ((settle e).setRam e.state.ram).ram := congrArg State.ram (settle_setRam e e.state.ram)
    _ = e.state.ram := State.setRam_ram (settle e) e.state.ram

/-- A step that changes data memory executed an ST. -/
theorem stepWith_ram_ne {cfg : Config} {s t : State} (h : stepWith cfg s = .next t) (hne : t.ram ≠ s.ram) :
    ∃ r1 r2, fetch cfg s = .ok (.st r1 r2) := by
  obtain ⟨-, ⟨-, rfl⟩ | ⟨i, hi, ⟨-, rfl⟩ | ⟨hv, rfl⟩⟩⟩ := stepWith_next_cases h
  · exact absurd (fatal_ram s _) hne
  · exact absurd (fatal_ram s _) hne
  · by_contra hst
    have hi_ne : ∀ r1 r2, i ≠ .st r1 r2 := by
      rintro r1 r2 rfl
      exact hst ⟨r1, r2, hi⟩
    exact hne ((settle_ram _).trans (executor_ram_of_ne_st hi_ne hv s))

/-- Replacing data memory by any other changes nothing of the step of an instruction other than LD but data memory. -/
theorem stepWith_setRam {cfg : Config} {s : State} (hrun : s.status = .running)
    (hld : ∀ r1 r2, fetch cfg s ≠ .ok (.ld r1 r2)) (m : Memory) :
    ∃ t m', stepWith cfg s = .next t ∧ stepWith cfg (s.setRam m) = .next (t.setRam m') := by
  have hfetch : fetch cfg (s.setRam m) = fetch cfg s := fetch_setRam cfg s m
  obtain ⟨i, hi, hexec⟩ | ⟨herr, hfatal⟩ := stepWith_running (cfg := cfg) hrun
  · have hexec' : stepWith cfg (s.setRam m) = exec i (s.setRam m) := stepWith_of_fetch_ok hrun (hfetch.trans hi)
    rw [hexec, hexec']
    obtain ⟨hv, heq⟩ | ⟨hbad, heq⟩ := exec_cases i s
    · have hi_ne : ∀ r1 r2, i ≠ .ld r1 r2 := by
        rintro r1 r2 rfl
        exact hld r1 r2 hi
      obtain ⟨m', hm'⟩ := executor_setRam_of_ne_ld hi_ne hv s m
      exact ⟨_, m', heq, by rw [exec_of_valid hv, hm', settle_setRam]⟩
    · exact ⟨_, m, heq, exec_of_invalid hbad (s.setRam m)⟩
  · exact ⟨_, m, hfatal, stepWith_of_fetch_error (s := s.setRam m) hrun (hfetch.trans herr)⟩

/-- Settles O33: executors other than LD and ST commute with replacing data memory. -/
theorem ramIsWrittenOnlyByStAndReadOnlyByLd : Obligations.RamIsWrittenOnlyByStAndReadOnlyByLd := by
  refine ⟨fun img v s h => construct_read_ram h, fun cfg s t h hne => stepWith_ram_ne h hne, ?_⟩
  intro cfg s m hrun hld
  obtain ⟨t, m', hstep, hstep'⟩ := stepWith_setRam hrun hld m
  exact ⟨t, t.setRam m', hstep, hstep', agreeButRam_setRam t m'⟩

end Sys2Proof.Machine

/-! # Proofs: the encoding (30_encoding.md)

An opcode byte of 0x10 or more selects no operation (`opcodeOf_eq_none`); its window length and its record follow. -/

namespace Sys2Proof

/-! ### Decoding an unknown opcode (rule R59) -/

/-- A complete window is decoded, and the bytes after it are left. -/
theorem decodeWith_of_le {cfg : Config} {op : Byte} {rest : List Byte} (h : windowLen cfg op ≤ rest.length) :
    decodeWith cfg (op :: rest) =
      .ok (decodeFields cfg op (rest.take (windowLen cfg op)), rest.drop (windowLen cfg op)) :=
  if_pos h

theorem windowLen_of_unknown (cfg : Config) {op : Byte} (h : 16 ≤ op.toNat) : windowLen cfg op = 0 := by
  rw [windowLen, opcodeOf_eq_none.mpr h]

theorem decodeFields_of_unknown (cfg : Config) {op : Byte} (h : 16 ≤ op.toNat) (w : List Byte) :
    decodeFields cfg op w = .unknown op := by
  rw [decodeFields, opcodeOf_eq_none.mpr h]

/-- Settles O45: the empty window is always complete. -/
theorem unknownOpcodesDecodeWithAnEmptyWindow : Obligations.UnknownOpcodesDecodeWithAnEmptyWindow := by
  intro cfg op rest h
  have hlen : windowLen cfg op = 0 := windowLen_of_unknown cfg h
  have hfits : windowLen cfg op ≤ rest.length := hlen ▸ Nat.zero_le _
  refine ⟨hlen, ?_⟩
  rw [decodeWith_of_le hfits, decodeFields_of_unknown cfg h, hlen, List.drop_zero]

end Sys2Proof

/-! # Proofs: the cycle (40_cycle.md)

What fetch answers is said once for each of its three outcomes: the opcode is past the end, the window does not fit, or
both are read. A step that ends in an error is the fatal path on the state before it. -/

namespace Sys2Proof.Machine

/-! ### The stages before execution (rules R69, R70) -/

theorem fetchOpcode_of_lt {s : State} (h : s.pc.toNat < 256) :
    fetchOpcode s = some (Memory.read s.rom s.pc.toNat) :=
  (fetchOpcode_eq s).trans (if_pos h)

theorem fetchOpcode_eq_none {s : State} : fetchOpcode s = none ↔ 256 ≤ s.pc.toNat := by
  rw [fetchOpcode_eq, ite_eq_right_iff, ← Nat.not_lt]
  simp

theorem fetch_of_pc_past_end {s : State} (cfg : Config) (h : 256 ≤ s.pc.toNat) :
    fetch cfg s = .error .illegalMemoryAccess := by
  simp only [fetch, fetchOpcode_eq_none.mpr h]

theorem fetch_of_window_past_end {cfg : Config} {s : State} (hpc : s.pc.toNat < 256)
    (h : 256 < s.pc.toNat + 1 + windowLen cfg (Memory.read s.rom s.pc.toNat)) :
    fetch cfg s = .error .illegalMemoryAccess := by
  simp only [fetch, fetchOpcode_of_lt hpc, fetchWindow, memRead_of_gt h]

theorem fetch_of_window_read {cfg : Config} {s : State} {w : List Byte} (hpc : s.pc.toNat < 256)
    (h : memRead s.rom (s.pc.toNat + 1) (windowLen cfg (Memory.read s.rom s.pc.toNat)) = some w) :
    fetch cfg s = .ok (decodeFields cfg (Memory.read s.rom s.pc.toNat) w) := by
  simp only [fetch, fetchOpcode_of_lt hpc, fetchWindow, h]

/-- Settles O21: the opcode read is the range of one byte at the program counter. -/
theorem fetchPastTheEndIsIllegalMemoryAccess : Obligations.FetchPastTheEndIsIllegalMemoryAccess := by
  intro cfg s hrun hle
  refine ⟨fetchOpcode_eq_none.trans ⟨fun hge => Nat.le_antisymm hle hge, fun heq => heq.ge⟩, fun heq => ?_⟩
  exact stepWith_of_fetch_error hrun (fetch_of_pc_past_end cfg heq.ge)

/-- Settles O22: the window read either fails or gives the bytes that are decoded and executed. -/
theorem windowPastTheEndIsIllegalMemoryAccess : Obligations.WindowPastTheEndIsIllegalMemoryAccess := by
  intro cfg s hrun hle op
  have hpc : s.pc.toNat < 256 := Nat.lt_succ_of_le hle
  refine ⟨fun hpast => stepWith_of_fetch_error hrun (fetch_of_window_past_end hpc hpast), fun hfits => ?_,
    fun hunknown => ?_⟩
  · have hread := memRead_of_le (m := s.rom) hfits
    exact ⟨_, hread, stepWith_of_fetch_ok hrun (fetch_of_window_read hpc hread)⟩
  · rw [windowLen_of_unknown cfg hunknown]
    exact hpc

/-! ### When a step exists (rule R68) -/

/-- The execute stage answers a next state for every instruction and every state. -/
theorem exec_next (i : Instr) (s : State) : ∃ t, exec i s = .next t := by
  obtain ⟨_, heq⟩ | ⟨_, heq⟩ := exec_cases i s
  · exact ⟨_, heq⟩
  · exact ⟨_, heq⟩

/-- Settles O20: fetch ends in an instruction, which `exec` completes, or in the fatal path. -/
theorem stepExistsExactlyWhenRunning : Obligations.StepExistsExactlyWhenRunning := by
  refine fun cfg s => ⟨fun hrun => ?_, stepWith_terminal cfg⟩
  obtain ⟨i, -, hexec⟩ | ⟨-, hfatal⟩ := stepWith_running (cfg := cfg) hrun
  · rw [hexec]
    exact exec_next i s
  · exact ⟨_, hfatal⟩

/-! ### The fatal path (rule R73) -/

/-- UnknownOpcode is the only error an executor ends a run with. -/
theorem completedStatus_eq_errored {i : Instr} {k : FatalKind} (h : completedStatus i .running = .errored k) :
    ∃ op, i = .unknown op ∧ k = .unknownOpcode := by
  cases i with
  | unknown op => exact ⟨op, rfl, (Status.errored.inj h).symm⟩
  | _ => cases h

theorem settle_executor_unknown (op : Byte) (h : ∀ r ∈ (Instr.unknown op).regs, r.toNat < 4) (s : State) :
    settle (executor (.unknown op) h s) = fatal .unknownOpcode s := rfl

/-- Whichever stage raised the error, the step is the fatal path on the state before it: no executor has written
anything. -/
theorem stepWith_errored {cfg : Config} {s t : State} {k : FatalKind} (h : stepWith cfg s = .next t)
    (hk : t.status = .errored k) : t = fatal k s := by
  obtain ⟨hrun, ⟨-, rfl⟩ | ⟨i, -, ⟨-, rfl⟩ | ⟨hv, rfl⟩⟩⟩ := stepWith_next_cases h
  · obtain rfl := Status.errored.inj hk
    rfl
  · obtain rfl := Status.errored.inj hk
    rfl
  · rw [settle_executor_status, hrun] at hk
    obtain ⟨op, rfl, rfl⟩ := completedStatus_eq_errored hk
    exact settle_executor_unknown op hv s

/-- Settles O24: the state after the fatal path is terminal. -/
theorem fatalErrorChangesOnlyErrorAndStatus : Obligations.FatalErrorChangesOnlyErrorAndStatus := by
  intro cfg s t k _ hstep hk
  refine ⟨stepWith_errored hstep hk, ?_⟩
  rw [stepWith_terminal cfg (by simp [hk]), hk]

end Sys2Proof.Machine

/-! # Proofs: the unknown opcode (45_system.md)

An unknown opcode has no register field and an empty window, so neither the validation stage nor the window read can fail
before its executor runs. -/

namespace Sys2Proof.Machine

theorem exec_unknown (op : Byte) (s : State) : exec (.unknown op) s = .next (fatal .unknownOpcode s) := by
  have hvalid : ∀ r ∈ (Instr.unknown op).regs, r.toNat < 4 := List.forall_mem_nil _
  rw [exec_of_valid hvalid, settle_executor_unknown]

/-- The empty window starts at `pc + 1`, at most the end of the space: at `pc = 255` there is no byte to read, and none is
read. -/
theorem fetch_of_unknown (cfg : Config) {s : State} (hpc : s.pc.toNat < 256)
    (hop : 16 ≤ (Memory.read s.rom s.pc.toNat).toNat) :
    fetch cfg s = .ok (.unknown (Memory.read s.rom s.pc.toNat)) := by
  have hfits : s.pc.toNat + 1 + windowLen cfg (Memory.read s.rom s.pc.toNat) ≤ 256 := by
    rw [windowLen_of_unknown cfg hop]
    exact hpc
  rw [fetch_of_window_read hpc (memRead_of_le hfits), decodeFields_of_unknown cfg hop]

/-- Settles O18: the fetch answers the unknown instruction, and its executor takes the fatal path. -/
theorem unknownOpcodeEndsTheRun : Obligations.UnknownOpcodeEndsTheRun := by
  refine ⟨exec_unknown, fun cfg s hrun hle hop => ?_⟩
  have hfetch := fetch_of_unknown cfg (Nat.lt_succ_of_le hle) hop
  exact (stepWith_of_fetch_ok hrun hfetch).trans (exec_unknown _ s)

end Sys2Proof.Machine

/-! # Proofs: the errors (60_exceptions.md)

Each stage of the cycle raises one fatal kind, and the first stage reached decides (`stepWith_status_eq_errored`); only
DIV by zero sets E and goes on (`settle_executor_error_cases`). -/

namespace Sys2Proof.Machine

/-! ### When fetch fails, and when it answers an unknown opcode (rules R69, R70, R102) -/

/-- The stages before execution, in their order: the opcode is past the end, its window does not fit, or the fetch
answers the decoded instruction. -/
theorem fetch_cases (cfg : Config) (s : State) :
    (256 ≤ s.pc.toNat ∧ fetch cfg s = .error .illegalMemoryAccess) ∨
    (s.pc.toNat < 256 ∧ 256 < s.pc.toNat + 1 + windowLen cfg (Memory.read s.rom s.pc.toNat) ∧
      fetch cfg s = .error .illegalMemoryAccess) ∨
    (s.pc.toNat < 256 ∧ s.pc.toNat + 1 + windowLen cfg (Memory.read s.rom s.pc.toNat) ≤ 256 ∧
      ∃ w, fetch cfg s = .ok (decodeFields cfg (Memory.read s.rom s.pc.toNat) w)) := by
  obtain hpc | hpc := Nat.lt_or_ge s.pc.toNat 256
  · obtain hpast | hfits := Nat.lt_or_ge 256 (s.pc.toNat + 1 + windowLen cfg (Memory.read s.rom s.pc.toNat))
    · exact .inr (.inl ⟨hpc, hpast, fetch_of_window_past_end hpc hpast⟩)
    · exact .inr (.inr ⟨hpc, hfits, _, fetch_of_window_read hpc (memRead_of_le hfits)⟩)
  · exact .inl ⟨hpc, fetch_of_pc_past_end cfg hpc⟩

theorem fetch_eq_illegalMemoryAccess {cfg : Config} {s : State} (hle : s.pc.toNat ≤ 256) :
    fetch cfg s = .error .illegalMemoryAccess ↔
      s.pc.toNat = 256 ∨
      s.pc.toNat < 256 ∧ 256 < s.pc.toNat + 1 + windowLen cfg (Memory.read s.rom s.pc.toNat) := by
  obtain ⟨hpc, herr⟩ | ⟨hpc, hpast, herr⟩ | ⟨hpc, hfits, w, hok⟩ := fetch_cases cfg s
  · exact iff_of_true herr (.inl (Nat.le_antisymm hle hpc))
  · exact iff_of_true herr (.inr ⟨hpc, hpast⟩)
  · exact iff_of_false (by simp [hok]) (by omega)

/-- Only an opcode byte of 0x10 or more decodes to an unknown instruction (rule R59). -/
theorem le_toNat_of_decodeFields_unknown {cfg : Config} {op op' : Byte} {w : List Byte}
    (h : decodeFields cfg op w = .unknown op') : 16 ≤ op.toNat := by
  cases hop : opcodeOf cfg op with
  | none => exact opcodeOf_eq_none.mp hop
  | some o =>
    rw [decodeFields, hop] at h
    cases o <;> cases h

theorem fetch_eq_unknown {cfg : Config} {s : State} :
    (∃ op, fetch cfg s = .ok (.unknown op)) ↔
      s.pc.toNat < 256 ∧ 16 ≤ (Memory.read s.rom s.pc.toNat).toNat := by
  refine ⟨fun ⟨op, hfetch⟩ => ?_, fun ⟨hpc, hop⟩ => ⟨_, fetch_of_unknown cfg hpc hop⟩⟩
  obtain ⟨-, herr⟩ | ⟨-, -, herr⟩ | ⟨hpc, -, w, hok⟩ := fetch_cases cfg s
  · cases herr.symm.trans hfetch
  · cases herr.symm.trans hfetch
  · exact ⟨hpc, le_toNat_of_decodeFields_unknown (Except.ok.inj (hok.symm.trans hfetch))⟩

/-! ### The fatal errors (rules R98, R102) -/

/-- Where a fatal kind is raised: IllegalMemoryAccess before execution, RegisterError by the validation stage, and
UnknownOpcode by the executor of an unknown opcode; no other executor ends a run with an error. -/
theorem stepWith_status_eq_errored {cfg : Config} {s t : State} {k : FatalKind} (h : stepWith cfg s = .next t) :
    t.status = .errored k ↔
      (k = .illegalMemoryAccess ∧ fetch cfg s = .error .illegalMemoryAccess) ∨
      (k = .registerError ∧ ∃ i, fetch cfg s = .ok i ∧ ∃ r ∈ i.regs, 4 ≤ r.toNat) ∨
      (k = .unknownOpcode ∧ ∃ op, fetch cfg s = .ok (.unknown op)) := by
  obtain ⟨hrun, hcases⟩ := stepWith_next_cases h
  constructor
  · intro hk
    obtain ⟨herr, rfl⟩ | ⟨i, hi, ⟨hbad, rfl⟩ | ⟨hv, rfl⟩⟩ := hcases
    · exact .inl ⟨(Status.errored.inj hk).symm, herr⟩
    · exact .inr (.inl ⟨(Status.errored.inj hk).symm, i, hi, hbad⟩)
    · rw [settle_executor_status, hrun] at hk
      obtain ⟨op, rfl, rfl⟩ := completedStatus_eq_errored hk
      exact .inr (.inr ⟨rfl, op, hi⟩)
  · rintro (⟨rfl, herr⟩ | ⟨rfl, i, hi, hbad⟩ | ⟨rfl, op, hi⟩)
    · rw [stepWith_of_fetch_error hrun herr] at h
      rw [← Host.Outcome.next.inj h, fatal_status]
    · rw [stepWith_of_fetch_ok hrun hi, exec_of_invalid hbad] at h
      rw [← Host.Outcome.next.inj h, fatal_status]
    · rw [stepWith_of_fetch_ok hrun hi, exec_unknown] at h
      rw [← Host.Outcome.next.inj h, fatal_status]

/-! ### The error that does not end the run (rules R83, R103) -/

theorem settle_executor_div_zero {r1 r2 r3 : Byte} (h : ∀ r ∈ (Instr.div r1 r2 r3).regs, r.toNat < 4)
    {s : State} (h2 : r2.toNat < 4) (hzero : s.x[r2.toNat] = 0) :
    settle (executor (.div r1 r2 r3) h s) = (s.setError true).advance 4 := by
  rw [executor, divide, if_pos (show s.reg ⟨r2.toNat, h2⟩ = 0 from hzero), settle_divideByZero]

/-- E is 1 after an execution only if it was 1 before, the opcode is unknown, or a DIV found a divisor value of 0. -/
theorem settle_executor_error_cases {i : Instr} (h : ∀ r ∈ i.regs, r.toNat < 4) {s : State}
    (herror : (settle (executor i h s)).error = true) :
    s.error = true ∨ (∃ op, i = .unknown op) ∨
      ∃ (r1 r2 r3 : Byte) (_ : r2.toNat < 4), i = .div r1 r2 r3 ∧ s.x[r2.toNat] = 0 := by
  cases i with
  | div r1 r2 r3 =>
    rw [executor] at herror
    obtain ⟨hzero, -⟩ | ⟨-, heq⟩ := divide_cases s ⟨r1.toNat, h r1 (by simp [Instr.regs])⟩
      ⟨r2.toNat, h r2 (by simp [Instr.regs])⟩ ⟨r3.toNat, h r3 (by simp [Instr.regs])⟩
    · exact .inr (.inr ⟨r1, r2, r3, h r2 (by simp [Instr.regs]), rfl, hzero⟩)
    · rw [heq] at herror
      exact .inl herror
  | ld r1 r2 =>
    rw [executor, load_eq] at herror
    exact .inl herror
  | st r1 r2 =>
    rw [executor, store_eq] at herror
    exact .inl herror
  | jmpc imm =>
    rw [executor] at herror
    obtain ⟨-, heq⟩ | ⟨-, heq⟩ := jumpIf_cases s.compare (State.setCompare · false) imm s <;>
      rw [heq] at herror <;> exact .inl herror
  | jmpe imm =>
    rw [executor] at herror
    obtain ⟨hset, -⟩ | ⟨-, heq⟩ := jumpIf_cases s.error (State.setError · false) imm s
    · exact .inl hset
    · rw [heq] at herror
      exact .inl herror
  | unknown op => exact .inr (.inl ⟨op, rfl⟩)
  | _ => exact .inl herror

/-- From E = 0, a step goes on with E = 1 exactly when it is a valid DIV by zero. -/
theorem stepWith_error_and_running {cfg : Config} {s t : State} (h : stepWith cfg s = .next t)
    (herror : s.error = false) :
    t.error = true ∧ t.status = .running ↔
      ∃ (r1 r2 r3 : Byte) (_ : r1.toNat < 4) (_ : r2.toNat < 4) (_ : r3.toNat < 4),
        fetch cfg s = .ok (.div r1 r2 r3) ∧ s.x[r2.toNat] = 0 := by
  obtain ⟨hrun, hcases⟩ := stepWith_next_cases h
  constructor
  · rintro ⟨hset, hstatus⟩
    obtain ⟨-, rfl⟩ | ⟨i, hi, ⟨-, rfl⟩ | ⟨hv, rfl⟩⟩ := hcases
    · cases hstatus
    · cases hstatus
    · obtain hold | ⟨op, rfl⟩ | ⟨r1, r2, r3, h2, rfl, hzero⟩ := settle_executor_error_cases hv hset
      · cases herror.symm.trans hold
      · cases hstatus
      · exact ⟨r1, r2, r3, hv r1 (by simp [Instr.regs]), h2, hv r3 (by simp [Instr.regs]), hi, hzero⟩
  · rintro ⟨r1, r2, r3, h1, h2, h3, hfetch, hzero⟩
    have hvalid : ∀ r ∈ (Instr.div r1 r2 r3).regs, r.toNat < 4 := by simp [Instr.regs, h1, h2, h3]
    rw [stepWith_of_fetch_ok hrun hfetch, exec_of_valid hvalid, settle_executor_div_zero hvalid h2 hzero] at h
    obtain rfl := Host.Outcome.next.inj h
    exact ⟨rfl, hrun⟩

/-- Settles O25: each fatal kind belongs to one stage, and each stage's failure is a condition on the program counter,
the opcode byte and the register fields. -/
theorem errorsAreRaisedExactlyWhereTheSpecSays : Obligations.ErrorsAreRaisedExactlyWhereTheSpecSays := by
  intro cfg s t _ hle hstep
  refine ⟨?illegalMemoryAccess, ?registerError, ?unknownOpcode, stepWith_error_and_running hstep⟩
  case illegalMemoryAccess =>
    rw [stepWith_status_eq_errored hstep, ← fetch_eq_illegalMemoryAccess hle]
    simp
  case registerError =>
    rw [stepWith_status_eq_errored hstep]
    simp
  case unknownOpcode =>
    rw [stepWith_status_eq_errored hstep, ← fetch_eq_unknown (cfg := cfg)]
    simp

end Sys2Proof.Machine

/-! # Proofs: the round trip between bytes and instructions (30_encoding.md)

A window and the fields read from it determine each other, whatever the field order: `rrField` and `rrWindow` are
inverse, and so are `rrrField` and `rrrWindow`. With the opcode byte in front this is the round trip of whole instructions, said
once in each direction (`encodeWith_eq_cons`, `encodeWith_decodeFields`). -/

namespace Sys2Proof

/-! ### Windows and their fields (rule R53) -/

theorem windowByte_of_lt {w : List Byte} {k : Nat} (h : k < w.length) : windowByte w k = w[k] := by
  rw [windowByte, List.getD_eq_getElem w 0 h]

theorem windowByte_ofFn {n : Nat} (f : Fin n → Byte) (k : Fin n) : windowByte (List.ofFn f) k.val = f k := by
  rw [windowByte_of_lt (by simp), List.getElem_ofFn]

theorem ofFn_windowByte {n : Nat} {w : List Byte} (h : w.length = n) :
    List.ofFn (fun k : Fin n => windowByte w k.val) = w := by
  subst h
  exact (congrArg List.ofFn (funext fun k => windowByte_of_lt k.isLt)).trans List.ofFn_getElem

/-- The window of shape RR holds at each offset the field that the order puts there. -/
theorem rrWindow_eq_ofFn (cfg : Config) (r1 r2 : Byte) :
    rrWindow cfg r1 r2 = List.ofFn fun j => ![r1, r2] (cfg.rrOrder.symm j) := by
  have hfield : ∀ k : Fin 2, (if k = 0 then r1 else r2) = ![r1, r2] k := by
    rw [Fin.forall_fin_two]
    exact ⟨rfl, rfl⟩
  simp only [rrWindow, hfield]
  rfl

/-- The window of shape RRR holds at each offset the field that the order puts there. -/
theorem rrrWindow_eq_ofFn (cfg : Config) (r1 r2 r3 : Byte) :
    rrrWindow cfg r1 r2 r3 = List.ofFn fun j => ![r1, r2, r3] (cfg.rrrOrder.symm j) := by
  have hfield : ∀ k : Fin 3, (if k = 0 then r1 else if k = 1 then r2 else r3) = ![r1, r2, r3] k := by
    simp only [Fin.forall_fin_succ, IsEmpty.forall_iff, and_true]
    exact ⟨rfl, rfl, rfl⟩
  simp only [rrrWindow, hfield]
  rfl

theorem rrField_rrWindow (cfg : Config) (r1 r2 : Byte) (k : Fin 2) :
    rrField cfg (rrWindow cfg r1 r2) k = ![r1, r2] k := by
  rw [rrField, rrWindow_eq_ofFn, windowByte_ofFn, Equiv.symm_apply_apply]

theorem rrrField_rrrWindow (cfg : Config) (r1 r2 r3 : Byte) (k : Fin 3) :
    rrrField cfg (rrrWindow cfg r1 r2 r3) k = ![r1, r2, r3] k := by
  rw [rrrField, rrrWindow_eq_ofFn, windowByte_ofFn, Equiv.symm_apply_apply]

theorem rrWindow_rrField (cfg : Config) {w : List Byte} (h : w.length = 2) :
    rrWindow cfg (rrField cfg w 0) (rrField cfg w 1) = w := by
  have hfields : ![rrField cfg w 0, rrField cfg w 1] = rrField cfg w := List.ofFn_injective rfl
  rw [rrWindow_eq_ofFn, hfields]
  simp only [rrField, Equiv.apply_symm_apply]
  exact ofFn_windowByte h

theorem rrrWindow_rrrField (cfg : Config) {w : List Byte} (h : w.length = 3) :
    rrrWindow cfg (rrrField cfg w 0) (rrrField cfg w 1) (rrrField cfg w 2) = w := by
  have hfields : ![rrrField cfg w 0, rrrField cfg w 1, rrrField cfg w 2] = rrrField cfg w := List.ofFn_injective rfl
  rw [rrrWindow_eq_ofFn, hfields]
  simp only [rrrField, Equiv.apply_symm_apply]
  exact ofFn_windowByte h

/-! ### Decoding what was encoded (O42) -/

/-- An opcode byte and its complete window decode to the record of their fields, whatever follows. -/
theorem decodeWith_cons_append {cfg : Config} {op : Byte} {w : List Byte} (h : w.length = windowLen cfg op)
    (rest : List Byte) : decodeWith cfg (op :: (w ++ rest)) = .ok (decodeFields cfg op w, rest) := by
  rw [decodeWith_of_le (by simp [← h]), ← h, List.take_left, List.drop_left]

/-- The encoding of an instruction is an opcode byte and its complete window, and their fields are the instruction's. -/
theorem encodeWith_eq_cons (cfg : Config) {i : Instr} (h : i.wellFormed = true) :
    ∃ op w, encodeWith cfg i = op :: w ∧ w.length = windowLen cfg op ∧ decodeFields cfg op w = i := by
  cases i with
  | unknown op =>
    have hop : 16 ≤ op.toNat := of_decide_eq_true h
    exact ⟨op, [], rfl, (windowLen_of_unknown cfg hop).symm, decodeFields_of_unknown cfg hop []⟩
  | _ =>
    refine ⟨_, _, rfl, by rw [windowLen_opcodeByte]; rfl, ?_⟩
    simp [decodeFields, opcodeOf_opcodeByte, rrField_rrWindow, rrrField_rrrWindow, windowByte]

/-- Settles O42: the opcode byte selects the operation, and its window gives back the fields. -/
theorem decodeOfEncodeIsTheInstruction : Obligations.DecodeOfEncodeIsTheInstruction := by
  intro cfg i rest hwf
  obtain ⟨op, w, henc, hlen, hfields⟩ := encodeWith_eq_cons cfg hwf
  rw [henc, List.cons_append, decodeWith_cons_append hlen, hfields]

/-! ### Encoding what was decoded (O43, O44) -/

/-- The record of an opcode byte and a complete window is well formed, encodes to those bytes and is as long as they
are. -/
theorem encodeWith_decodeFields {cfg : Config} {op : Byte} {w : List Byte} (h : w.length = windowLen cfg op) :
    (decodeFields cfg op w).wellFormed = true ∧ encodeWith cfg (decodeFields cfg op w) = op :: w ∧
      (decodeFields cfg op w).length = 1 + windowLen cfg op := by
  cases hop : opcodeOf cfg op with
  | none =>
    have hge : 16 ≤ op.toNat := opcodeOf_eq_none.mp hop
    rw [windowLen_of_unknown cfg hge] at h ⊢
    rw [decodeFields_of_unknown cfg hge, List.eq_nil_of_length_eq_zero h]
    exact ⟨decide_eq_true hge, rfl, rfl⟩
  | some o =>
    obtain rfl := opcodeByte_of_opcodeOf hop
    rw [windowLen_opcodeByte] at h ⊢
    rw [decodeFields, hop]
    refine ⟨?wellFormed, ?bytes, ?length⟩
    case wellFormed => cases o <;> rfl
    case length => cases o <;> rfl
    case bytes =>
      cases o <;> refine congrArg (opcodeByte cfg _ :: ·) ?_
      case add | sub | mul | div => exact rrrWindow_rrrField cfg h
      case ld | st | swp | eq | neq => exact rrWindow_rrField cfg h
      all_goals exact ofFn_windowByte h

theorem decodeFields_length {cfg : Config} {op : Byte} {w : List Byte} (h : w.length = windowLen cfg op) :
    (decodeFields cfg op w).length = 1 + windowLen cfg op := by
  obtain ⟨-, -, hlen⟩ := encodeWith_decodeFields h
  exact hlen

/-- Settles O43: the bytes decoded are the opcode byte, the window taken and the bytes left. -/
theorem encodeOfDecodeIsTheBytes : Obligations.EncodeOfDecodeIsTheBytes := by
  intro cfg bytes rest i hdec
  cases bytes with
  | nil => cases hdec
  | cons op tail =>
    obtain ⟨hfits, rfl, rfl⟩ := decodeWith_ok hdec
    obtain ⟨hwf, henc, -⟩ := encodeWith_decodeFields (List.length_take_of_le hfits)
    refine ⟨hwf, ?_⟩
    rw [henc, List.cons_append, List.take_append_drop]

theorem decodeWith_of_short {cfg : Config} {op : Byte} {rest : List Byte} (h : rest.length < windowLen cfg op) :
    decodeWith cfg (op :: rest) = .error .shortWindow :=
  if_neg (Nat.not_le.mpr h)

/-- Settles O44: the window taken is complete, so the record has the length of the bytes taken. -/
theorem decodingFailsOnlyOnMissingBytes : Obligations.DecodingFailsOnlyOnMissingBytes := by
  refine fun cfg op rest => ⟨fun hfits => ?_, decodeWith_of_short⟩
  refine ⟨_, _, decodeWith_of_le hfits, decodeFields_length (List.length_take_of_le hfits), ?_⟩
  rw [List.length_drop]
  omega

/-! ### The spec's vectors (O46) -/

/-- Settles O46: each of the byte strings is the default encoding of its instruction, with the bytes that follow it. -/
theorem specEncodingsDecode : Obligations.SpecEncodingsDecode :=
  ⟨decodeOfEncodeIsTheInstruction standard .nop [] rfl,
    decodeOfEncodeIsTheInstruction standard (.add 0 1 2) [] rfl,
    decodeOfEncodeIsTheInstruction standard (.div 0 1 9) [] rfl,
    decodeOfEncodeIsTheInstruction standard (.ldi 5 0) [] rfl,
    decodeOfEncodeIsTheInstruction standard (.st 3 2) [] rfl,
    decodeOfEncodeIsTheInstruction standard (.neq 0 2) [] rfl,
    decodeOfEncodeIsTheInstruction standard (.jmpc 0x0C) [] rfl,
    decodeOfEncodeIsTheInstruction standard (.prn 4) [] rfl,
    decodeOfEncodeIsTheInstruction standard .hlt [0xFF] rfl,
    decodeOfEncodeIsTheInstruction standard (.unknown 0x10) [] rfl⟩

end Sys2Proof

/-! # Proofs: the assembler (30_encoding.md, section 6) -/

namespace Sys2Proof.Machine

/-- The line that writes an instruction and carries no label. -/
def plainLine (i : Instr) : SourceLine := ⟨none, some (sourceItem i)⟩

theorem lineBytes_plainLine (cfg : Config) (labels : List (String × Nat)) (i : Instr) :
    lineBytes cfg labels (plainLine i) = some (encodeWith cfg i) := by
  cases i <;> rfl

theorem labelTable_plainLine (addr : Nat) (program : List Instr) : labelTable addr (program.map plainLine) = [] := by
  induction program generalizing addr with
  | nil => rfl
  | cons i program ih => exact ih _

/-- Settles O52: with no label marked, each line places the encoding of its instruction. -/
theorem assemblingInstructionsGivesTheirEncodings : Obligations.AssemblingInstructionsGivesTheirEncodings := by
  intro cfg program
  have hlines : (program.map plainLine).mapM (lineBytes cfg []) = some (program.map (encodeWith cfg)) := by
    induction program with
    | nil => rfl
    | cons i program ih => simp [lineBytes_plainLine, ih]
  change assembleWith cfg (program.map plainLine) = _
  rw [assembleWith, labelTable_plainLine, List.map_nil, if_pos List.nodup_nil, hlines, Option.map_some]

end Sys2Proof.Machine

/-! # Proofs: whole memories (20_memory.md, 70_reset_and_hazards.md)

A memory in canonical form lists exactly the addresses that read other than zero (`Memory.mem_iff_read`), in rising
order, so its reads determine it. -/

namespace Sys2Proof.Machine

/-! ### The write primitive (rule R35, O30) -/

theorem memWrite_of_gt {m : Memory} {a : Nat} {vs : List Byte} (h : 256 < a + vs.length) : memWrite m a vs = none :=
  if_neg (Nat.not_le.mpr h)

theorem memWrite_of_le {m : Memory} {a : Nat} {vs : List Byte} (h : a + vs.length ≤ 256) :
    memWrite m a vs = some (Memory.writeBytes m a vs) :=
  if_pos h

theorem storeByte_some {s s' : State} {a : Nat} {v : Byte} (h : storeByte s a v = some s') :
    ∃ m, s' = s.setRam m := by
  obtain ⟨m, -, heq⟩ := Option.map_eq_some_iff.mp h
  exact ⟨m, heq.symm⟩

/-- Settles O30: the two sides of the bounds check, and what a run of byte writes leaves at each address. -/
theorem writeIsAllOrNothing : Obligations.WriteIsAllOrNothing := by
  refine ⟨fun m a vs => ⟨memWrite_of_gt, fun hle hm => ?_⟩, fun s s' a v h => ?_⟩
  · exact ⟨_, memWrite_of_le hle, Memory.wf_writeBytes hm hle,
      fun k hk => Memory.read_writeBytes_inside hm hle hk, fun c hc => Memory.read_writeBytes_outside m hc⟩
  · obtain ⟨m, rfl⟩ := storeByte_some h
    exact s.setRam_rom m

/-! ### The canonical form (O31) -/

/-- A canonical memory lists an address with a byte exactly when it reads as that byte there, and the byte is not
zero. -/
theorem Memory.mem_iff_read {m : Memory} (hm : Memory.wf m) {a : Nat} {b : Byte} :
    (a, b) ∈ m ↔ Memory.read m a = b ∧ b ≠ Memory.unlisted := by
  obtain ⟨hs, hb⟩ := hm
  induction m with
  | nil =>
    simp only [List.not_mem_nil, Memory.read_nil, false_iff]
    exact fun ⟨heq, hne⟩ => hne heq.symm
  | cons c m ih =>
    obtain ⟨k, v⟩ := c
    obtain ⟨hk, hs'⟩ := List.pairwise_cons.mp hs
    obtain ⟨⟨-, hv⟩, hb'⟩ := List.forall_mem_cons.mp hb
    rw [List.mem_cons, Memory.read, ih hs' hb', Prod.mk.injEq]
    by_cases hka : k = a
    · subst hka
      rw [if_pos rfl, Memory.read_of_below hk]
      constructor
      · rintro (⟨-, rfl⟩ | ⟨rfl, hne⟩)
        · exact ⟨rfl, hv⟩
        · exact absurd rfl hne
      · exact fun ⟨heq, _⟩ => .inl ⟨rfl, heq.symm⟩
    · rw [if_neg hka, or_iff_right fun h => hka h.left.symm]

/-- Settles O31: two lists rising by address with the same members are the same list. -/
theorem equalReadsMeanEqualMemories : Obligations.EqualReadsMeanEqualMemories := by
  intro m m' hm hm' hread
  have hirrefl : Std.Irrefl fun c d : Host.Cell => c.1 < d.1 := ⟨fun c => Nat.lt_irrefl c.1⟩
  have hantisymm : Std.Antisymm fun c d : Host.Cell => c.1 < d.1 := ⟨fun _ _ h h' => absurd h' h.asymm⟩
  refine hm.left.eq_of_mem_iff hm'.left fun ⟨a, b⟩ => ?_
  rw [Memory.mem_iff_read hm, Memory.mem_iff_read hm', hread]

/-! ### Construction and reset (rules R30, R117, O27, O28) -/

theorem State.reset_x (i : RegIndex) : State.reset.x[i] = 0 :=
  Vector.getElem_replicate i.isLt

/-- Settles O27: the program counter is 0 and neither memory lists a byte. -/
theorem resetMeetsTheInvariant : Obligations.ResetMeetsTheInvariant :=
  ⟨Nat.zero_le _, State.reset_wf.left, State.reset_wf.right⟩

theorem construct_of_length {img : List Byte} (h : 1 ≤ img.length ∧ img.length ≤ 256) (v : Variant) :
    construct img v = some { State.reset with rom := Memory.writeBytes [] 0 img } :=
  if_pos h

/-- Construction keeps the invariant that reset meets: only program memory differs. -/
theorem construct_inv {img : List Byte} {v : Variant} {s : State} (h : construct img v = some s) : s.Inv := by
  have hrom : Memory.wf s.rom := construct_rom_wf h
  obtain rfl := construct_some h
  exact { resetMeetsTheInvariant with rom_wf := hrom }

/-- Settles O28: every field but program memory has its reset value. -/
theorem constructionGivesTheInitialState : Obligations.ConstructionGivesTheInitialState := by
  refine fun img v => ⟨fun hlen => ?_, fun hlen => if_neg hlen⟩
  have hsome := construct_of_length hlen v
  exact ⟨_, hsome, construct_inv hsome, rfl, State.reset_x, rfl, rfl, rfl, rfl, construct_read_ram hsome,
    fun _ ha => construct_read_rom_image hsome ha, fun _ ha => construct_read_rom_padding hsome ha⟩

end Sys2Proof.Machine

/-! # Proofs: the instructions (41_arithmetic.md to 45_system.md)

An instruction whose register fields are valid runs its executor on the registers they select (`dispatch1_of_lt` and its
companions); what the executor answers is then read as the whole next state. The shared pieces are the operations on
bytes as integers and the jump target as an address. -/

namespace Sys2Proof.Machine

/-! ### Dispatch with valid fields (rule R72) -/

theorem dispatch1_of_lt {r1 : Byte} (h1 : r1.toNat < 4) (s : State) (run : RegIndex → Executed) :
    dispatch1 r1 s run = .next (settle (run ⟨r1.toNat, h1⟩)) := by
  rw [dispatch1, reg?_of_lt h1]

theorem dispatch2_of_lt {r1 r2 : Byte} (h1 : r1.toNat < 4) (h2 : r2.toNat < 4) (s : State)
    (run : RegIndex → RegIndex → Executed) :
    dispatch2 r1 r2 s run = .next (settle (run ⟨r1.toNat, h1⟩ ⟨r2.toNat, h2⟩)) := by
  rw [dispatch2, reg?_of_lt h1, reg?_of_lt h2]

theorem dispatch3_of_lt {r1 r2 r3 : Byte} (h1 : r1.toNat < 4) (h2 : r2.toNat < 4) (h3 : r3.toNat < 4) (s : State)
    (run : RegIndex → RegIndex → RegIndex → Executed) :
    dispatch3 r1 r2 r3 s run = .next (settle (run ⟨r1.toNat, h1⟩ ⟨r2.toNat, h2⟩ ⟨r3.toNat, h3⟩)) := by
  rw [dispatch3, reg?_of_lt h1, reg?_of_lt h2, reg?_of_lt h3]

/-! ### Arithmetic on bytes as integers (rules R79 to R83, O1 to O5) -/

theorem aluAdd_eq (a b : Byte) : aluAdd a b = BitVec.ofNat 8 ((a.toNat + b.toNat) % 256) := by
  apply BitVec.eq_of_toNat_eq
  simp [aluAdd]

theorem aluSub_eq (a b : Byte) : aluSub a b = BitVec.ofInt 8 (((a.toNat : Int) - b.toNat) % 256) := by
  have ha := a.isLt
  have hb := b.isLt
  apply BitVec.eq_of_toNat_eq
  rw [aluSub, BitVec.toNat_sub, BitVec.toNat_ofInt]
  omega

theorem aluMul_eq (a b : Byte) : aluMul a b = BitVec.ofNat 8 ((a.toNat * b.toNat) % 256) := by
  apply BitVec.eq_of_toNat_eq
  simp [aluMul]

theorem aluDiv_eq (a b : Byte) : aluDiv a b = BitVec.ofNat 8 (a.toNat / b.toNat) := by
  have hlt : a.toNat / b.toNat < 2 ^ 8 := (Nat.div_le_self _ _).trans_lt a.isLt
  apply BitVec.eq_of_toNat_eq
  rw [aluDiv, BitVec.toNat_udiv, BitVec.toNat_ofNat, Nat.mod_eq_of_lt hlt]

/-- Settles O1: the byte sum is the integer sum modulo 256. -/
theorem addWritesSumModulo256 : Obligations.AddWritesSumModulo256 := by
  intro r1 r2 r3 h1 h2 h3 s
  rw [← aluAdd_eq]
  exact dispatch3_of_lt h1 h2 h3 s (arithmetic aluAdd s)

/-- Settles O2: the byte difference is the integer difference modulo 256. -/
theorem subWritesDifferenceModulo256 : Obligations.SubWritesDifferenceModulo256 := by
  intro r1 r2 r3 h1 h2 h3 s
  rw [← aluSub_eq]
  exact dispatch3_of_lt h1 h2 h3 s (arithmetic aluSub s)

/-- Settles O3: the byte product is the integer product modulo 256. -/
theorem mulWritesProductModulo256 : Obligations.MulWritesProductModulo256 := by
  intro r1 r2 r3 h1 h2 h3 s
  rw [← aluMul_eq]
  exact dispatch3_of_lt h1 h2 h3 s (arithmetic aluMul s)

theorem divide_of_ne_zero {s : State} {b : RegIndex} (h : s.reg b ≠ 0) (a d : RegIndex) :
    divide s a b d = arithmetic aluDiv s a b d :=
  if_neg h

/-- Settles O4: the quotient of bytes is the integer quotient. -/
theorem divWritesUnsignedQuotient : Obligations.DivWritesUnsignedQuotient := by
  intro r1 r2 r3 h1 h2 h3 s hne
  have hdiv := divide_of_ne_zero (s := s) (b := ⟨r2.toNat, h2⟩) hne ⟨r1.toNat, h1⟩ ⟨r3.toNat, h3⟩
  rw [exec, execDiv, dispatch3_of_lt h1 h2 h3, hdiv, ← aluDiv_eq]
  rfl

/-- Settles O5: the driver sets E, and the executor wrote nothing. -/
theorem divideByZeroSetsErrorAndContinues : Obligations.DivideByZeroSetsErrorAndContinues := by
  intro r1 r2 r3 h1 h2 h3 s hzero
  have hvalid : ∀ r ∈ (Instr.div r1 r2 r3).regs, r.toNat < 4 := by simp [Instr.regs, h1, h2, h3]
  rw [exec_of_valid hvalid, settle_executor_div_zero hvalid h2 hzero]
  rfl

/-! ### Data movement (rules R84 to R87, O6 to O9) -/

/-- Settles O6: a byte is an address inside data memory, so the read cannot fail. -/
theorem ldLoadsTheAddressedByte : Obligations.LdLoadsTheAddressedByte := by
  intro r1 r2 h1 h2 s
  rw [exec, execLd, dispatch2_of_lt h1 h2, load_eq]
  rfl

/-- Settles O7: the one field selects the destination. -/
theorem ldiLoadsTheImmediate : Obligations.LdiLoadsTheImmediate :=
  fun _ _ h1 s => dispatch1_of_lt h1 s _

/-- Settles O8: the new data memory is one write into the old one. -/
theorem stStoresOneByte : Obligations.StStoresOneByte := by
  intro r1 r2 h1 h2 s
  refine ⟨Memory.write s.ram (effectiveAddress s.x[r2.toNat]) s.x[r1.toNat], ?next, fun hm => ⟨?wf, ?written⟩, ?others⟩
  case next =>
    rw [exec, execSt, dispatch2_of_lt h1 h2, store_eq]
    rfl
  case wf => exact Memory.wf_write hm s.x[r2.toNat].isLt
  case written => exact Memory.read_write_same hm _ _
  case others => exact fun a ha => Memory.read_write_other s.ram _ ha

/-- Settles O9: the two writes use the values of the state before both. -/
theorem swpExchangesTwoRegisters : Obligations.SwpExchangesTwoRegisters :=
  fun _ _ h1 h2 s => dispatch2_of_lt h1 h2 s (exchange s)

/-! ### Compares (rules R88, R89, O10, O11) -/

/-- Settles O10: the flag is the comparison of the two values, whatever C was. -/
theorem eqSetsCompareOnEquality : Obligations.EqSetsCompareOnEquality :=
  fun _ _ h1 h2 s => dispatch2_of_lt h1 h2 s (compareInto equalFlag s)

theorem notEqualFlag_eq (a b : Byte) : notEqualFlag a b = decide (a ≠ b) := by
  by_cases h : a = b <;> simp [notEqualFlag, h]

/-- Settles O11: the flag is the negated comparison of the two values, whatever C was. -/
theorem neqSetsCompareOnInequality : Obligations.NeqSetsCompareOnInequality := by
  intro r1 r2 h1 h2 s
  rw [← notEqualFlag_eq]
  exact dispatch2_of_lt h1 h2 s (compareInto notEqualFlag s)

/-! ### Control transfer (rules R90 to R93, O12 to O14) -/

theorem jumpTarget_toNat (imm : Byte) : (jumpTarget imm).toNat = imm.toNat :=
  BitVec.toNat_setWidth_of_le (by omega)

theorem jumpTarget_eq (imm : Byte) : jumpTarget imm = BitVec.ofNat 9 imm.toNat := by
  rw [← jumpTarget_toNat, BitVec.ofNat_toNat, BitVec.setWidth_eq]

/-- A taken jump leaves the program counter at its target: the advance is 0 (rule R90). -/
theorem State.advance_zero (s : State) : s.advance 0 = s := by
  have hpc : s.pc + BitVec.ofNat 9 (0 : Fin 5).val = s.pc := BitVec.add_zero s.pc
  rw [State.advance, hpc]

/-- Settles O12: there is no field to validate, and the jump advances by 0. -/
theorem jmpGoesToTheImmediate : Obligations.JmpGoesToTheImmediate := by
  intro imm s
  rw [exec, execJmp, dispatch0, settle_cont, State.advance_zero, jumpTarget_eq]
  rfl

/-- A conditional jump goes to its target and clears its flag, or falls through and changes nothing else
(rules R92, R93). -/
theorem settle_jumpIf (flag : Bool) (clear : State → State) (imm : Byte) (s : State) :
    settle (jumpIf flag clear imm s) =
      if flag = true then clear (s.setPc (BitVec.ofNat 9 imm.toNat)) else s.advance 2 := by
  cases flag
  · rfl
  · rw [← jumpTarget_eq]
    exact State.advance_zero _

/-- Settles O13: the jump on the flag C. -/
theorem jmpcConsumesCompare : Obligations.JmpcConsumesCompare :=
  fun imm s => congrArg Host.Outcome.next (settle_jumpIf s.compare (State.setCompare · false) imm s)

/-- Settles O14: the jump on the flag E. -/
theorem jmpeConsumesError : Obligations.JmpeConsumesError :=
  fun imm s => congrArg Host.Outcome.next (settle_jumpIf s.error (State.setError · false) imm s)

/-! ### System instructions (rules R94 to R96, O15 to O17) -/

/-- Settles O15: there is no field to validate, and the executor writes nothing. -/
theorem nopOnlyAdvances : Obligations.NopOnlyAdvances :=
  fun s => congrArg Host.Outcome.next (settle_cont s 1)

/-- Settles O16: the one field selects the register that is emitted. -/
theorem prnEmitsOneByte : Obligations.PrnEmitsOneByte :=
  fun _ h1 s => dispatch1_of_lt h1 s _

/-- Settles O17: the driver does not apply the advance of a halt. -/
theorem hltHaltsInPlace : Obligations.HltHaltsInPlace :=
  fun s => congrArg Host.Outcome.next (settle_halt s 1)

/-! ### Two instructions in sequence (70_reset_and_hazards.md section 3, O35, O47, O48) -/

/-- Settles O35: one write into data memory, then a read of the same or of another address. -/
theorem loadAfterStoreReturnsTheStoredByte : Obligations.LoadAfterStoreReturnsTheStoredByte := by
  intro r1 r2 b d h1 h2 hb hd s t hm hst
  obtain ⟨m, hexec, hsame, hother⟩ := stStoresOneByte r1 r2 h1 h2 s
  obtain ⟨-, hread⟩ := hsame hm
  obtain rfl := Host.Outcome.next.inj (hexec.symm.trans hst)
  have hbyte : Memory.read m (effectiveAddress s.x[b.toNat]) =
      if s.x[b.toNat] = s.x[r2.toNat] then s.x[r1.toNat]
      else Memory.read s.ram (effectiveAddress s.x[b.toNat]) := by
    split
    · next heq => rw [heq, hread]
    · next hne => exact hother _ fun heq => hne (BitVec.eq_of_toNat_eq heq)
  have hpc : s.pc + 3 + 3 = s.pc + 6 := BitVec.add_assoc s.pc 3 3
  rw [ldLoadsTheAddressedByte b d hb hd, ← hbyte, ← hpc]

/-- Settles O47: the DIV changes only E and pc, and the JMPE overwrites both. -/
theorem divideByZeroIsSeenAndClearedByJmpe : Obligations.DivideByZeroIsSeenAndClearedByJmpe := by
  intro r1 r2 r3 imm h1 h2 h3 s t hzero hdiv
  obtain rfl := Host.Outcome.next.inj ((divideByZeroSetsErrorAndContinues r1 r2 r3 h1 h2 h3 s hzero).symm.trans hdiv)
  rw [jmpeConsumesError, if_pos rfl]

/-- What a JMPC leaves after an instruction of 3 bytes that wrote only C. -/
theorem exec_jmpc_after_compare {imm : Byte} {c : Bool} {s u : State}
    (h : exec (.jmpc imm) { s with compare := c, pc := s.pc + 3 } = .next u) :
    u = if c = true then { s with pc := BitVec.ofNat 9 imm.toNat, compare := false }
      else { s with pc := s.pc + 5, compare := false } := by
  obtain rfl := Host.Outcome.next.inj ((jmpcConsumesCompare imm _).symm.trans h)
  have hpc : s.pc + 3 + 2 = s.pc + 5 := BitVec.add_assoc s.pc 3 2
  cases c
  · rw [← hpc]
  · rfl

/-- Settles O48: the compare writes C, and the JMPC follows and clears it. -/
theorem compareIsSeenAndConsumedByJmpc : Obligations.CompareIsSeenAndConsumedByJmpc := by
  intro r1 r2 imm h1 h2 s t u
  refine ⟨fun hcmp hjmp => ?_, fun hcmp hjmp => ?_⟩
  · obtain rfl := Host.Outcome.next.inj ((eqSetsCompareOnEquality r1 r2 h1 h2 s).symm.trans hcmp)
    simpa only [decide_eq_true_eq] using exec_jmpc_after_compare hjmp
  · obtain rfl := Host.Outcome.next.inj ((neqSetsCompareOnInequality r1 r2 h1 h2 s).symm.trans hcmp)
    simpa only [decide_eq_true_eq, ite_not] using exec_jmpc_after_compare hjmp

end Sys2Proof.Machine

/-! # Proofs: what a step changes (10_state.md)

One lemma for each part of the state says which executors write it: the Compare flag, the Error flag, the registers and
the program counter. The statements about steps follow, since the fatal path changes only E and the status. -/

namespace Sys2Proof.Machine

/-! ### The Compare flag (rule R19, O38) -/

/-- Only a compare and a taken JMPC write C. -/
theorem settle_executor_compare_ne {i : Instr} (h : ∀ r ∈ i.regs, r.toNat < 4) {s : State}
    (hne : (settle (executor i h s)).compare ≠ s.compare) :
    (∃ r1 r2, i = .eq r1 r2) ∨ (∃ r1 r2, i = .neq r1 r2) ∨ (∃ imm, i = .jmpc imm) ∧ s.compare = true := by
  cases i with
  | eq r1 r2 => exact .inl ⟨r1, r2, rfl⟩
  | neq r1 r2 => exact .inr (.inl ⟨r1, r2, rfl⟩)
  | jmpc imm =>
    rw [executor, settle_jumpIf] at hne
    split at hne
    · next htaken => exact .inr (.inr ⟨⟨imm, rfl⟩, htaken⟩)
    · exact absurd rfl hne
  | jmpe imm =>
    rw [executor, settle_jumpIf] at hne
    split at hne <;> exact absurd rfl hne
  | div r1 r2 r3 =>
    rw [executor, divide] at hne
    split at hne <;> exact absurd rfl hne
  | ld r1 r2 =>
    rw [executor, load_eq] at hne
    exact absurd rfl hne
  | st r1 r2 =>
    rw [executor, store_eq] at hne
    exact absurd rfl hne
  | _ => exact absurd rfl hne

/-- Settles O38: the fatal path keeps C, and so does every executor but three. -/
theorem compareChangesOnlyByCompareOrTakenJmpc : Obligations.CompareChangesOnlyByCompareOrTakenJmpc := by
  intro cfg s t hstep hne
  obtain ⟨-, ⟨-, rfl⟩ | ⟨i, hi, ⟨-, rfl⟩ | ⟨hv, rfl⟩⟩⟩ := stepWith_next_cases hstep
  · exact absurd (fatal_compare s _) hne
  · exact absurd (fatal_compare s _) hne
  · obtain ⟨r1, r2, rfl⟩ | ⟨r1, r2, rfl⟩ | ⟨⟨imm, rfl⟩, htaken⟩ := settle_executor_compare_ne hv hne
    · exact .inl ⟨r1, r2, hi⟩
    · exact .inr (.inl ⟨r1, r2, hi⟩)
    · exact .inr (.inr ⟨⟨imm, hi⟩, htaken⟩)

/-! ### The Error flag (rule R20, O39) -/

/-- Only a taken JMPE clears E, and it goes to its target. -/
theorem settle_executor_error_cleared {i : Instr} (h : ∀ r ∈ i.regs, r.toNat < 4) {s : State}
    (hset : s.error = true) (hclear : (settle (executor i h s)).error = false) :
    ∃ imm, i = .jmpe imm ∧ (settle (executor i h s)).pc = BitVec.ofNat 9 imm.toNat := by
  cases i with
  | jmpe imm =>
    rw [executor, settle_jumpIf, if_pos hset]
    exact ⟨imm, rfl, rfl⟩
  | jmpc imm =>
    rw [executor, settle_jumpIf] at hclear
    split at hclear <;> cases hset.symm.trans hclear
  | div r1 r2 r3 =>
    rw [executor, divide] at hclear
    split at hclear
    · cases hclear
    · cases hset.symm.trans hclear
  | ld r1 r2 =>
    rw [executor, load_eq] at hclear
    cases hset.symm.trans hclear
  | st r1 r2 =>
    rw [executor, store_eq] at hclear
    cases hset.symm.trans hclear
  | unknown op => cases hclear
  | _ => cases hset.symm.trans hclear

theorem stepWith_error_of_errored {cfg : Config} {s t : State} {k : FatalKind} (h : stepWith cfg s = .next t)
    (hk : t.status = .errored k) : t.error = true := by
  rw [stepWith_errored h hk, fatal_error]

theorem stepWith_error_of_halted {cfg : Config} {s t : State} (h : stepWith cfg s = .next t)
    (hhalted : t.status = .halted) : t.error = s.error := by
  obtain ⟨hrun, -⟩ := stepWith_next_cases h
  rw [stepWith_of_fetch_ok hrun ((stepWith_status_eq_halted h).mp hhalted), hltHaltsInPlace] at h
  obtain rfl := Host.Outcome.next.inj h
  rfl

/-- A step that clears E is a JMPE that goes to its target. -/
theorem stepWith_error_cleared {cfg : Config} {s t : State} (h : stepWith cfg s = .next t) (hset : s.error = true)
    (hclear : t.error = false) : ∃ imm, fetch cfg s = .ok (.jmpe imm) ∧ t.pc = BitVec.ofNat 9 imm.toNat := by
  obtain ⟨-, ⟨-, rfl⟩ | ⟨i, hi, ⟨-, rfl⟩ | ⟨hv, rfl⟩⟩⟩ := stepWith_next_cases h
  · cases hclear
  · cases hclear
  · obtain ⟨imm, rfl, hpc⟩ := settle_executor_error_cleared hv hset hclear
    exact ⟨imm, hi, hpc⟩

/-- Settles O39: a change of E that sets it is told apart by the status after it. -/
theorem errorFlagChangesOnlyByErrorOrTakenJmpe : Obligations.ErrorFlagChangesOnlyByErrorOrTakenJmpe := by
  intro cfg s t hstep
  refine ⟨fun k hk => stepWith_error_of_errored hstep hk, ?divByZero, stepWith_error_of_halted hstep, ?changed⟩
  case divByZero =>
    intro r1 r2 r3 h1 h2 h3 hfetch hzero
    obtain ⟨hrun, -⟩ := stepWith_next_cases hstep
    rw [stepWith_of_fetch_ok hrun hfetch, divideByZeroSetsErrorAndContinues r1 r2 r3 h1 h2 h3 s hzero] at hstep
    obtain rfl := Host.Outcome.next.inj hstep
    rfl
  case changed =>
    intro hne
    cases hset : t.error with
    | true =>
      have hold : s.error = false := by simpa [hset] using hne.symm
      cases hstatus : t.status with
      | running => exact .inr (.inl ⟨rfl, rfl, (stepWith_error_and_running hstep hold).mp ⟨hset, hstatus⟩⟩)
      | halted => exact absurd (stepWith_error_of_halted hstep hstatus) hne
      | errored k => exact .inl ⟨rfl, k, rfl⟩
    | false =>
      have hold : s.error = true := by simpa [hset] using hne.symm
      exact .inr (.inr ⟨rfl, stepWith_error_cleared hstep hold hset⟩)

/-! ### The registers (rule R29, O40) -/

theorem settle_x (e : Executed) : (settle e).x = e.state.x := by
  obtain ⟨s, n, outcome⟩ := e
  match outcome with
  | .cont => rfl
  | .halt => rfl
  | .fail .divideByZero => rfl
  | .fail (.fatal _) => rfl

/-- An executor writes no register but its destinations. -/
theorem executor_reg_of_not_destination {i : Instr} (h : ∀ r ∈ i.regs, r.toNat < 4) (s : State) {j : RegIndex}
    (hj : ∀ b ∈ destinations i, b.toNat ≠ j.val) : (executor i h s).state.reg j = s.reg j := by
  have hother : ∀ b ∈ destinations i, ∀ hb : b.toNat < 4, ∀ (s' : State) (v : Byte),
      (s'.setReg ⟨b.toNat, hb⟩ v).reg j = s'.reg j :=
    fun b hmem hb s' v => s'.reg_setReg_other v fun heq => hj b hmem (congrArg Fin.val heq).symm
  cases i with
  | add r1 r2 r3 => exact hother r3 (by simp [destinations]) _ _ _
  | sub r1 r2 r3 => exact hother r3 (by simp [destinations]) _ _ _
  | mul r1 r2 r3 => exact hother r3 (by simp [destinations]) _ _ _
  | div r1 r2 r3 =>
    rw [executor, divide]
    split
    · rfl
    · exact hother r3 (by simp [destinations]) _ _ _
  | ld r1 r2 =>
    rw [executor, load_eq]
    exact hother r2 (by simp [destinations]) _ _ _
  | ldi imm r1 => exact hother r1 (by simp [destinations]) _ _ _
  | st r1 r2 =>
    rw [executor, store_eq]
    rfl
  | swp r1 r2 =>
    exact (hother r2 (by simp [destinations]) _ _ _).trans (hother r1 (by simp [destinations]) _ _ _)
  | jmpc imm =>
    rw [executor, jumpIf]
    split <;> rfl
  | jmpe imm =>
    rw [executor, jumpIf]
    split <;> rfl
  | _ => rfl

/-- Settles O40: neither the fatal path nor outcome handling writes a register. -/
theorem registersOutsideTheDestinationsAreKept : Obligations.RegistersOutsideTheDestinationsAreKept := by
  intro i s t hexec j hj
  obtain ⟨hv, heq⟩ | ⟨-, heq⟩ := exec_cases i s
  · obtain rfl := Host.Outcome.next.inj (heq.symm.trans hexec)
    rw [settle_x]
    exact executor_reg_of_not_destination hv s hj
  · obtain rfl := Host.Outcome.next.inj (heq.symm.trans hexec)
    rw [fatal_x]

/-! ### The program counter (rules R16 to R18, O41) -/

/-- A fetched instruction ends inside program memory. -/
theorem fetch_ok_length_le {cfg : Config} {s : State} {i : Instr} (h : fetch cfg s = .ok i) :
    s.pc.toNat + i.length ≤ 256 := by
  obtain ⟨-, herr⟩ | ⟨-, -, herr⟩ | ⟨hpc, hfits, -⟩ := fetch_cases cfg s
  · cases herr.symm.trans h
  · cases herr.symm.trans h
  · rw [fetch_of_window_read hpc (memRead_of_le hfits)] at h
    obtain rfl := Except.ok.inj h
    rw [decodeFields_length (by simp)]
    omega

theorem ofNat_toNat_lt (imm : Byte) : (BitVec.ofNat 9 imm.toNat).toNat < 256 := by
  rw [← jumpTarget_eq, jumpTarget_toNat]
  exact imm.isLt

/-- Where an execution leaves the program counter: after the instruction or at a jump's target when the run goes on, and
where it was when the run ends. -/
theorem settle_executor_pc (i : Instr) (h : ∀ r ∈ i.regs, r.toNat < 4) (s : State) :
    (completedStatus i .running = .running ∧
      ((settle (executor i h s)).pc = s.pc + BitVec.ofNat 9 i.length ∨
        isJump i = true ∧ (settle (executor i h s)).pc.toNat < 256)) ∨
    (completedStatus i .running ≠ .running ∧ (settle (executor i h s)).pc = s.pc) := by
  cases i with
  | div r1 r2 r3 =>
    rw [executor, divide]
    split <;> exact .inl ⟨rfl, .inl rfl⟩
  | ld r1 r2 =>
    rw [executor, load_eq]
    exact .inl ⟨rfl, .inl rfl⟩
  | st r1 r2 =>
    rw [executor, store_eq]
    exact .inl ⟨rfl, .inl rfl⟩
  | jmp imm =>
    rw [executor, settle_cont, State.advance_zero, jumpTarget_eq]
    exact .inl ⟨rfl, .inr ⟨rfl, ofNat_toNat_lt imm⟩⟩
  | jmpc imm =>
    rw [executor, settle_jumpIf]
    split
    · exact .inl ⟨rfl, .inr ⟨rfl, ofNat_toNat_lt imm⟩⟩
    · exact .inl ⟨rfl, .inl rfl⟩
  | jmpe imm =>
    rw [executor, settle_jumpIf]
    split
    · exact .inl ⟨rfl, .inr ⟨rfl, ofNat_toNat_lt imm⟩⟩
    · exact .inl ⟨rfl, .inl rfl⟩
  | hlt => exact .inr ⟨nofun, rfl⟩
  | unknown op => exact .inr ⟨nofun, rfl⟩
  | _ => exact .inl ⟨rfl, .inl rfl⟩

/-- Advancing past an instruction that ends inside the space does not wrap. -/
theorem toNat_add_length {pc : Pc} {i : Instr} (h : pc.toNat + i.length ≤ 256) :
    (pc + BitVec.ofNat 9 i.length).toNat = pc.toNat + i.length := by
  rw [BitVec.toNat_add, BitVec.toNat_ofNat]
  omega

/-- Settles O41: the fetched instruction ends inside program memory, so the advance is an integer addition. -/
theorem programCounterFallsThroughOrJumps : Obligations.ProgramCounterFallsThroughOrJumps := by
  intro cfg s t i hrun hfetch hstep
  have hfits := fetch_ok_length_le hfetch
  rw [stepWith_of_fetch_ok hrun hfetch] at hstep
  obtain ⟨hv, heq⟩ | ⟨-, heq⟩ := exec_cases i s <;> obtain rfl := Host.Outcome.next.inj (heq.symm.trans hstep)
  · rw [settle_executor_status, hrun]
    obtain ⟨hgoes, hpc | ⟨hjump, hlt⟩⟩ | ⟨hends, hpc⟩ := settle_executor_pc i hv s
    · rw [hpc, toNat_add_length hfits]
      exact ⟨fun _ => .inl rfl, fun hends => absurd hgoes hends, fun hlt => by omega⟩
    · exact ⟨fun _ => .inr ⟨hjump, hlt⟩, fun hends => absurd hgoes hends, fun _ => hjump⟩
    · rw [hpc]
      exact ⟨fun hgoes => absurd hgoes hends, fun _ => rfl, fun hlt => absurd hlt (lt_irrefl _)⟩
  · exact ⟨nofun, fun _ => rfl, fun hlt => absurd hlt (lt_irrefl _)⟩

/-! ### The invariant (O26) -/

theorem stepWith_pc_le {cfg : Config} {s t : State} (hs : s.pc.toNat ≤ 256) (h : stepWith cfg s = .next t) :
    t.pc.toNat ≤ 256 := by
  obtain ⟨hrun, ⟨-, rfl⟩ | ⟨i, hfetch, -⟩⟩ := stepWith_next_cases h
  · exact hs
  · obtain ⟨hgoes, hends, -⟩ := programCounterFallsThroughOrJumps cfg s t i hrun hfetch h
    by_cases ht : t.status = .running
    · obtain hpc | ⟨-, hlt⟩ := hgoes ht
      · rw [hpc]
        exact fetch_ok_length_le hfetch
      · exact hlt.le
    · rwa [hends ht]

/-- Data memory stays in canonical form: ST writes one byte at a byte address, and no other step writes. -/
theorem stepWith_ram_wf {cfg : Config} {s t : State} (hs : Memory.wf s.ram) (h : stepWith cfg s = .next t) :
    Memory.wf t.ram := by
  by_cases hne : t.ram = s.ram
  · rwa [hne]
  · obtain ⟨r1, r2, hfetch⟩ := stepWith_ram_ne h hne
    obtain ⟨hrun, -⟩ := stepWith_next_cases h
    rw [stepWith_of_fetch_ok hrun hfetch] at h
    obtain ⟨hv, heq⟩ | ⟨-, heq⟩ := exec_cases (.st r1 r2) s <;> obtain rfl := Host.Outcome.next.inj (heq.symm.trans h)
    · rw [settle_ram, executor, store_eq]
      exact Memory.wf_write hs (s.reg _).isLt
    · exact absurd (fatal_ram s _) hne

/-- Every step keeps the invariant, whatever the encoding parameters. -/
theorem stepWith_inv {cfg : Config} {s t : State} (hs : s.Inv) (h : stepWith cfg s = .next t) : t.Inv where
  pc_le := stepWith_pc_le hs.pc_le h
  rom_wf := (stepWith_rom h).symm ▸ hs.rom_wf
  ram_wf := stepWith_ram_wf hs.ram_wf h

/-- Settles O26: the three parts of the invariant are kept one by one. -/
theorem stepKeepsTheInvariant : Obligations.StepKeepsTheInvariant :=
  fun _ _ hs h => stepWith_inv hs h

end Sys2Proof.Machine

/-! # Proofs: steps, runs and what the host reads (40_cycle.md, 60_exceptions.md)

Fetch is decoding of the program-memory bytes from the program counter on, and runs compose; the dump and the status
code are what the host reads of a state. -/

namespace Sys2Proof.Machine

/-! ### Fetch is decoding (rules R67 to R71, O19) -/

theorem romBytesFrom_past_end {s : State} (h : 256 ≤ s.pc.toNat) : romBytesFrom s = [] := by
  rw [romBytesFrom, Nat.sub_eq_zero_of_le h, List.range_zero, List.map_nil]

/-- Inside the space the bytes from the program counter on are the opcode byte and what the window is read from. -/
theorem romBytesFrom_eq_cons {s : State} (h : s.pc.toNat < 256) :
    romBytesFrom s = Memory.read s.rom s.pc.toNat ::
      (List.range (255 - s.pc.toNat)).map fun k => Memory.read s.rom (s.pc.toNat + 1 + k) := by
  have hcount : 256 - s.pc.toNat = (255 - s.pc.toNat) + 1 := by omega
  rw [romBytesFrom, hcount, List.range_succ_eq_map, List.map_cons, List.map_map]
  simp [Function.comp_def, Nat.add_right_comm, ← Nat.add_assoc]

/-- Fetch answers the instruction that the bytes from the program counter on decode to, and fails exactly when they are
too few. -/
theorem fetch_eq_decodeWith (cfg : Config) (s : State) :
    fetch cfg s =
      ((decodeWith cfg (romBytesFrom s)).map Prod.fst).mapError fun _ => FatalKind.illegalMemoryAccess := by
  obtain hpc | hpc := Nat.lt_or_ge s.pc.toNat 256
  · rw [romBytesFrom_eq_cons hpc]
    obtain hpast | hfits := Nat.lt_or_ge 256 (s.pc.toNat + 1 + windowLen cfg (Memory.read s.rom s.pc.toNat))
    · rw [fetch_of_window_past_end hpc hpast, decodeWith_of_short (by simp; omega)]
      rfl
    · have hle : windowLen cfg (Memory.read s.rom s.pc.toNat) ≤ 255 - s.pc.toNat := by omega
      rw [fetch_of_window_read hpc (memRead_of_le hfits), decodeWith_of_le (by simpa using hle), ← List.map_take,
        List.take_range, Nat.min_eq_left hle]
      rfl
  · rw [fetch_of_pc_past_end cfg hpc, romBytesFrom_past_end hpc]
    rfl

/-- Settles O19: the decoder and the fetch answer the same instruction, well formed by the round trip. -/
theorem stepRunsTheDecodedInstruction : Obligations.StepRunsTheDecodedInstruction := by
  refine fun s hrun => ⟨fun i rest hdec => ?_, fun e hdec => ?_⟩
  · obtain ⟨hwf, -⟩ := encodeOfDecodeIsTheBytes standard (romBytesFrom s) rest i hdec
    have hfetch : fetch standard s = .ok i := (fetch_eq_decodeWith standard s).trans (by rw [← decode, hdec]; rfl)
    exact ⟨hwf, stepWith_of_fetch_ok hrun hfetch⟩
  · have hfetch : fetch standard s = .error .illegalMemoryAccess :=
      (fetch_eq_decodeWith standard s).trans (by rw [← decode, hdec]; rfl)
    exact stepWith_of_fetch_error hrun hfetch

/-! ### Runs (rules R77, R78, O49) -/

theorem runFuel_succ_of_next {s t : State} (h : step s = .next t) (n : Nat) : runFuel (n + 1) s = runFuel n t := by
  rw [runFuel, h]

/-- A run splits at any budget. -/
theorem runFuel_add (n k : Nat) (s : State) : runFuel (n + k) s = runFuel k (runFuel n s) := by
  induction n generalizing s with
  | zero => rw [Nat.zero_add, runFuel]
  | succ n ih =>
    by_cases hrun : s.status = .running
    · obtain ⟨t, hstep⟩ : ∃ t, step s = .next t := (stepExistsExactlyWhenRunning standard s).left hrun
      rw [Nat.add_right_comm, runFuel_succ_of_next hstep, runFuel_succ_of_next hstep, ih]
    · rw [runFuel_terminal hrun, runFuel_terminal hrun, runFuel_terminal hrun]

/-- Settles O49: a run is split at the state it has reached, which steps once more or is terminal. -/
theorem runIsTheSequenceOfStepsToTheFirstTerminalState :
    Obligations.RunIsTheSequenceOfStepsToTheFirstTerminalState := by
  refine fun s => ⟨rfl, fun n t hstep => runFuel_succ_of_next hstep n, fun n hrun => ?_, fun n k hend => ?_⟩
  · obtain ⟨t, hstep⟩ : ∃ t, step (runFuel n s) = .next t :=
      (stepExistsExactlyWhenRunning standard (runFuel n s)).left hrun
    rw [runFuel_add, runFuel_succ_of_next hstep, runFuel, hstep]
  · rw [runFuel_add, runFuel_terminal hend]

/-! ### The final dump (rule R78, O50) -/

theorem Memory.allBytes_length (m : Memory) : (Memory.allBytes m).length = 256 := by
  simp [Memory.allBytes]

theorem Memory.getElem_allBytes (m : Memory) {a : Nat} (h : a < (Memory.allBytes m).length) :
    (Memory.allBytes m)[a] = Memory.read m a := by
  simp [Memory.allBytes]

/-- The snapshot of a state that the final dump shows. -/
def State.dump (s : State) : FinalDump where
  pc := s.pc
  x := s.x
  compare := s.compare
  error := s.error
  rom := Memory.allBytes s.rom
  ram := Memory.allBytes s.ram

theorem finalDump_of_running {s : State} (h : s.status = .running) : finalDump s = none := by
  rw [finalDump, h]

theorem finalDump_of_ended {s : State} (h : s.status ≠ .running) : finalDump s = some (s.dump, s.status) := by
  cases hs : s.status with
  | running => exact absurd hs h
  | halted => rw [finalDump, hs]; rfl
  | errored k => rw [finalDump, hs]; rfl

/-- Settles O50: an ended state is dumped whole, and each space byte by byte. -/
theorem finalDumpIsTheWholeFinalState : Obligations.FinalDumpIsTheWholeFinalState := by
  intro s
  by_cases hrun : s.status = .running
  · rw [finalDump_of_running hrun]
    exact ⟨iff_of_true rfl hrun, nofun⟩
  · rw [finalDump_of_ended hrun]
    refine ⟨iff_of_false nofun hrun, fun d st h => ?_⟩
    obtain ⟨rfl, rfl⟩ := Prod.mk.inj (Option.some.inj h)
    exact ⟨rfl, rfl, rfl, rfl, rfl, s.rom.allBytes_length, s.ram.allBytes_length,
      fun _ ha => s.rom.getElem_allBytes ha, fun _ ha => s.ram.getElem_allBytes ha⟩

/-! ### The status codes (rule R99, O51) -/

/-- The status a code stands for; the codes above 4 stand for none. -/
def statusOfCode (c : BitVec 3) : Option Status :=
  [.running, .halted, .errored .illegalMemoryAccess, .errored .registerError, .errored .unknownOpcode][c.toNat]?

theorem statusOfCode_statusCode (st : Status) : statusOfCode (statusCode st) = some st := by
  match st with
  | .running => rfl
  | .halted => rfl
  | .errored .illegalMemoryAccess => rfl
  | .errored .registerError => rfl
  | .errored .unknownOpcode => rfl

/-- A code that stands for no status is the code of none. -/
theorem statusCode_ne {c : BitVec 3} (h : statusOfCode c = none) (st : Status) : statusCode st ≠ c := by
  rintro rfl
  cases h.symm.trans (statusOfCode_statusCode st)

/-- Settles O51: a status is read back from its code, and the codes 5 and 6 read back as none. -/
theorem statusCodesAreDistinct : Obligations.StatusCodesAreDistinct := by
  refine ⟨rfl, rfl, rfl, rfl, rfl, fun st st' h => ?_, fun st => ⟨statusCode_ne rfl st, statusCode_ne rfl st⟩⟩
  rw [← Option.some.injEq, ← statusOfCode_statusCode, h, statusOfCode_statusCode]

end Sys2Proof.Machine
